-- ==== Sys2Proof/Word.lean ====
section
/-! DEFINITION. The word, the byte, and the architecture's fixed numbers (00_scope.md R5, R6, 10_state.md R10). -/

namespace Sys2Proof

/-- R10: the only data type, an unsigned 16-bit value. -/
abbrev Word := BitVec 16

/-- R43: one byte of the backing store. -/
abbrev Byte := BitVec 8

/-- R11: a register index, 0 to 7. -/
abbrev Reg := Fin 8

/-- R5 `REG_BASE`: the operand word that names register 0. -/
def regBase : Nat := 32768

/-- R5 `MODULUS`: the modulus of `add` and `mult`. -/
def modulus : Nat := 32768

/-- R5 `NUM_OPCODES`. -/
def numOpcodes : Nat := 22

end Sys2Proof
end

