-- ==== Sys2Proof/Machine/Flags.lean ====
section
/-! DEFINITION. The machine has no flags (10_state.md R21): a comparison's result is a word 0 or 1, and a condition is a test of
an operand value. -/

namespace Sys2Proof.Machine

/-- R111, R112: 1 if the comparison holds, else 0. -/
def conditionWord (b : Bool) : Word := if b then 1 else 0

/-- R132, R133: any value but the 16-bit 0 is true. -/
def conditionHolds (c : Word) : Bool := decide (c ≠ 0)

end Sys2Proof.Machine
end

