-- ==== Sys2Proof/Syntax.lean ====
section
/-! DEFINITION. The 22 instructions (30_encoding.md R64), one constructor per row of the opcode table. -/

namespace Sys2Proof

/-- R63, kind `val`: a literal, or a register whose content is the value. -/
inductive Operand
  | lit (v : Word)
  | reg (r : Reg)
deriving DecidableEq, Repr

/-- R64: operands in encoding order. `inp` is the table's `in`, which is a word of Lean's own. -/
inductive Instr
  | halt
  | set (dst : Reg) (val : Operand)
  | push (val : Operand)
  | pop (dst : Reg)
  | eq (dst : Reg) (a b : Operand)
  | gt (dst : Reg) (a b : Operand)
  | jmp (addr : Operand)
  | jt (cond addr : Operand)
  | jf (cond addr : Operand)
  | add (dst : Reg) (a b : Operand)
  | mult (dst : Reg) (a b : Operand)
  | mod (dst : Reg) (a b : Operand)
  | and (dst : Reg) (a b : Operand)
  | or (dst : Reg) (a b : Operand)
  | not (dst : Reg) (a : Operand)
  | rmem (dst : Reg) (addr : Operand)
  | wmem (addr val : Operand)
  | call (addr : Operand)
  | ret
  | out (ch : Operand)
  | inp (dst : Reg)
  | noop
deriving DecidableEq, Repr

end Sys2Proof
end

