-- ==== Sys2Proof/WellFormed.lean ====
section
/-! DEFINITION. Which instructions have an encoding (30_encoding.md R62, R63): a literal operand is 0 to 32767. A register
operand is a `Fin 8` and needs no check. -/

namespace Sys2Proof

/-- R62: a literal is 0 to 32767. -/
def Operand.wf : Operand → Bool
  | .lit v => decide (v.toNat ≤ 32767)
  | .reg _ => true

/-- Every `val` operand of the instruction is well formed. -/
def Instr.wf : Instr → Bool
  | .halt => true
  | .set _ v => v.wf
  | .push v => v.wf
  | .pop _ => true
  | .eq _ a b => a.wf && b.wf
  | .gt _ a b => a.wf && b.wf
  | .jmp t => t.wf
  | .jt c t => c.wf && t.wf
  | .jf c t => c.wf && t.wf
  | .add _ a b => a.wf && b.wf
  | .mult _ a b => a.wf && b.wf
  | .mod _ a b => a.wf && b.wf
  | .and _ a b => a.wf && b.wf
  | .or _ a b => a.wf && b.wf
  | .not _ a => a.wf
  | .rmem _ m => m.wf
  | .wmem m v => m.wf && v.wf
  | .call t => t.wf
  | .ret => true
  | .out c => c.wf
  | .inp _ => true
  | .noop => true

end Sys2Proof
end

