-- ==== Sys2Proof/Decode.lean ====
section
/-! DEFINITION. Word classes, formats, the decoder (total on any words or bytes, rejecting by name) and the encoder
(30_encoding.md R60 to R69, 40_decoder.md R81 to R88). -/

namespace Sys2Proof

/-! ### The classifier, R81 -/

def isOpcode (w : Word) : Bool := decide (w.toNat ≤ 21)
def isLiteral (w : Word) : Bool := decide (w.toNat ≤ 32767)
def isStrictLiteral (w : Word) : Bool := decide (22 ≤ w.toNat) && decide (w.toNat ≤ 32767)
def isReg (w : Word) : Bool := decide (32768 ≤ w.toNat) && decide (w.toNat ≤ 32775)
def isInvalid (w : Word) : Bool := decide (32776 ≤ w.toNat)

/-- R81 `reg_index`: bits 2 to 0; meaningful only when `isReg`. -/
def regIndex (w : Word) : Reg := Fin.ofNat 8 w.toNat

/-! ### Formats, R61 -/

/-- R61: the six formats, named after their operand kinds. -/
inductive Format
  | N | R | V | RV | VV | RVV
deriving DecidableEq, Repr

/-- R61, second column: words of an instruction of the format. -/
def Format.words : Format → Nat
  | .N => 1
  | .R => 2
  | .V => 2
  | .RV => 3
  | .VV => 3
  | .RVV => 4

/-- R64, fourth column. -/
def Instr.format : Instr → Format
  | .halt => .N
  | .ret => .N
  | .noop => .N
  | .pop _ => .R
  | .inp _ => .R
  | .push _ => .V
  | .jmp _ => .V
  | .call _ => .V
  | .out _ => .V
  | .set _ _ => .RV
  | .not _ _ => .RV
  | .rmem _ _ => .RV
  | .jt _ _ => .VV
  | .jf _ _ => .VV
  | .wmem _ _ => .VV
  | .eq _ _ _ => .RVV
  | .gt _ _ _ => .RVV
  | .add _ _ _ => .RVV
  | .mult _ _ _ => .RVV
  | .mod _ _ _ => .RVV
  | .and _ _ _ => .RVV
  | .or _ _ _ => .RVV

/-- R65: the length in words, fixed by the format. -/
def Instr.length (i : Instr) : Nat := i.format.words

/-! ### The decoder -/

/-- Why a sequence of words is no instruction. -/
inductive DecodeError
  /-- R66: the opcode word is 22 or more. -/
  | unknownOpcode (w : Word)
  /-- R67: a word in a `reg` position is not 32768 to 32775. -/
  | invalidRegister (w : Word)
  /-- R67: a word in a `val` position is above 32775. -/
  | valueOutOfRange (w : Word)
  /-- The words end before the instruction does; in the machine, the next word lies outside memory (R48). -/
  | truncated
deriving DecidableEq, Repr

/-- The decoder's answer. `used` counts the words taken, the offending one included (R82, R83). -/
inductive Decoded
  | instr (i : Instr) (rest : List Word) (used : Nat)
  | rejected (e : DecodeError) (used : Nat)
deriving DecidableEq, Repr

/-- Takes the next word; every reader consumes exactly one (R80). -/
def takeWord (ws : List Word) (used : Nat) (k : Word → List Word → Nat → Decoded) : Decoded :=
  match ws with
  | [] => .rejected .truncated used
  | w :: ws => k w ws (used + 1)

/-- R82, on a list of words. -/
def takeReg (ws : List Word) (used : Nat) (k : Reg → List Word → Nat → Decoded) : Decoded :=
  takeWord ws used fun w ws used =>
    if isReg w then k (regIndex w) ws used else .rejected (.invalidRegister w) used

/-- R83, on a list of words; the register is named here and read by the machine. -/
def takeVal (ws : List Word) (used : Nat) (k : Operand → List Word → Nat → Decoded) : Decoded :=
  takeWord ws used fun w ws used =>
    if isInvalid w then .rejected (.valueOutOfRange w) used
    else if isReg w then k (.reg (regIndex w)) ws used
    else k (.lit w) ws used

def formR (f : Reg → Instr) (ws : List Word) (used : Nat) : Decoded :=
  takeReg ws used fun d ws used => .instr (f d) ws used

def formV (f : Operand → Instr) (ws : List Word) (used : Nat) : Decoded :=
  takeVal ws used fun a ws used => .instr (f a) ws used

def formRV (f : Reg → Operand → Instr) (ws : List Word) (used : Nat) : Decoded :=
  takeReg ws used fun d ws used => formV (f d) ws used

def formVV (f : Operand → Operand → Instr) (ws : List Word) (used : Nat) : Decoded :=
  takeVal ws used fun a ws used => formV (f a) ws used

def formRVV (f : Reg → Operand → Operand → Instr) (ws : List Word) (used : Nat) : Decoded :=
  takeReg ws used fun d ws used => formVV (f d) ws used

/-- R64, R88: the opcode word selects the instruction and its operand readers, left to right. -/
def decodeOperands (op : Word) (ws : List Word) (used : Nat) : Decoded :=
  match op.toNat with
  | 0 => .instr .halt ws used
  | 1 => formRV .set ws used
  | 2 => formV .push ws used
  | 3 => formR .pop ws used
  | 4 => formRVV .eq ws used
  | 5 => formRVV .gt ws used
  | 6 => formV .jmp ws used
  | 7 => formVV .jt ws used
  | 8 => formVV .jf ws used
  | 9 => formRVV .add ws used
  | 10 => formRVV .mult ws used
  | 11 => formRVV .mod ws used
  | 12 => formRVV .and ws used
  | 13 => formRVV .or ws used
  | 14 => formRV .not ws used
  | 15 => formRV .rmem ws used
  | 16 => formVV .wmem ws used
  | 17 => formV .call ws used
  | 18 => .instr .ret ws used
  | 19 => formV .out ws used
  | 20 => formR .inp ws used
  | 21 => .instr .noop ws used
  | _ => .rejected (.unknownOpcode op) used

/-- Decodes the instruction at the head of a list of words. -/
def decodeWords (ws : List Word) : Decoded :=
  takeWord ws 0 decodeOperands

/-! ### Bytes, R42, R43, R69 -/

/-- R43: bits 7 to 0, the byte at the lower address. -/
def lowByte (w : Word) : Byte := w.extractLsb' 0 8

/-- R43: bits 15 to 8, the byte at the higher address. -/
def highByte (w : Word) : Byte := w.extractLsb' 8 8

/-- R43: `word(A) = { Byte[2*A + 1], Byte[2*A] }`. -/
def wordOfBytes (lo hi : Byte) : Word := hi ++ lo

/-- R69: words as bytes, low byte first. -/
def bytesOfWords : List Word → List Byte
  | [] => []
  | w :: ws => lowByte w :: highByte w :: bytesOfWords ws

/-- R69: the words a sequence of bytes holds; an odd byte at the end makes no word. -/
def wordsOfBytes : List Byte → List Word
  | lo :: hi :: bs => wordOfBytes lo hi :: wordsOfBytes bs
  | _ => []

/-- Decodes the instruction at the head of a list of bytes, as the byte store holds them. -/
def decodeBytes (bs : List Byte) : Decoded := decodeWords (wordsOfBytes bs)

/-! ### The encoder -/

/-- R64, first column. -/
def Instr.opcode : Instr → Word
  | .halt => 0
  | .set _ _ => 1
  | .push _ => 2
  | .pop _ => 3
  | .eq _ _ _ => 4
  | .gt _ _ _ => 5
  | .jmp _ => 6
  | .jt _ _ => 7
  | .jf _ _ => 8
  | .add _ _ _ => 9
  | .mult _ _ _ => 10
  | .mod _ _ _ => 11
  | .and _ _ _ => 12
  | .or _ _ _ => 13
  | .not _ _ => 14
  | .rmem _ _ => 15
  | .wmem _ _ => 16
  | .call _ => 17
  | .ret => 18
  | .out _ => 19
  | .inp _ => 20
  | .noop => 21

/-- R11: register `i` is named by the word 32768 + `i`. -/
def regWord (r : Reg) : Word := BitVec.ofNat 16 (regBase + r.val)

/-- R63: a literal encodes as itself, a register as its address word. -/
def Operand.word : Operand → Word
  | .lit v => v
  | .reg r => regWord r

/-- R64: the operand words in encoding order. -/
def Instr.operandWords : Instr → List Word
  | .halt => []
  | .set d v => [regWord d, v.word]
  | .push v => [v.word]
  | .pop d => [regWord d]
  | .eq d a b => [regWord d, a.word, b.word]
  | .gt d a b => [regWord d, a.word, b.word]
  | .jmp t => [t.word]
  | .jt c t => [c.word, t.word]
  | .jf c t => [c.word, t.word]
  | .add d a b => [regWord d, a.word, b.word]
  | .mult d a b => [regWord d, a.word, b.word]
  | .mod d a b => [regWord d, a.word, b.word]
  | .and d a b => [regWord d, a.word, b.word]
  | .or d a b => [regWord d, a.word, b.word]
  | .not d a => [regWord d, a.word]
  | .rmem d m => [regWord d, m.word]
  | .wmem m v => [m.word, v.word]
  | .call t => [t.word]
  | .ret => []
  | .out c => [c.word]
  | .inp d => [regWord d]
  | .noop => []

/-- R60: the words of an instruction, opcode word first. -/
def encode (i : Instr) : List Word := i.opcode :: i.operandWords

/-- R69: the bytes of an instruction in the byte store. -/
def encodeBytes (i : Instr) : List Byte := bytesOfWords (encode i)

/-! ### The host's numbering of an instruction's bits -/

/-- Word `k` is bits 16k+15 to 16k of `w`; every bit at or above `nbits` is 0; four words, the longest instruction (R60). -/
def tableWords (nbits w : Nat) : List Word :=
  let v := w % 2 ^ nbits
  [BitVec.ofNat 16 v, BitVec.ofNat 16 (v / 2 ^ 16), BitVec.ofNat 16 (v / 2 ^ 32), BitVec.ofNat 16 (v / 2 ^ 48)]

/-- The instruction the decoder reads from the bytes of a row's word (log 7). -/
def decodeTableWord (nbits w : Nat) : Option Instr :=
  match decodeBytes (bytesOfWords (tableWords nbits w)) with
  | .instr i _ _ => some i
  | .rejected _ _ => none

end Sys2Proof
end

