-- ==== Sys2Proof/Config.lean ====
section
/-! DEFINITION. The build parameters of the core (00_scope.md R5). A model may take `MEM_WORDS` and `STACK_DEPTH` as
arguments: they are one field of State (log 1), so every statement about every state is about every build. -/

namespace Sys2Proof

/-- R5: the parameters a build of the core fixes. -/
structure Config where
  /-- `MEM_WORDS`: the number of memory words (R41); 1 to 65536. -/
  memWords : Nat
  /-- `STACK_DEPTH`: the most entries the stack holds; `none` is the architecture's unbounded stack (R14). -/
  stackDepth : Option Nat
deriving DecidableEq, Repr

/-- R5: the values this hardware takes. -/
def Config.default : Config := { memWords := 32768, stackDepth := none }

/-- R5, R41: `MEM_WORDS` is from 1 to 65536. -/
def Config.wf (c : Config) : Bool := decide (1 ≤ c.memWords ∧ c.memWords ≤ 65536)

/-- R5 `HALT_MESSAGE`, open (D20): the code points of the host's completion line. No body, so nothing can be proved of its
text (log 13); no rule of the core uses it. -/
opaque Config.haltMessage : List Word

end Sys2Proof
end

