-- ==== Sys2Proof/Machine/State.lean ====
section
/-! DEFINITION. Everything the spec gives the machine (10_state.md R10 to R23, 00_scope.md R8), as plain data, and its value
after reset (R31). -/

namespace Sys2Proof.Machine

/-- R43: the byte store, as (byte address, byte) pairs; an unlisted address reads as `Memory.unlistedByte` (log 5). -/
abbrev Memory := List Host.Cell

/-- R17: the three run states. -/
inductive RunState
  | running
  | halted
  | crashed
deriving DecidableEq, Repr

/-- R30, R160: the condition of the output sink: it takes a word, is not ready yet, or has failed. -/
inductive Sink
  | ready
  | busy
  | failed
deriving DecidableEq, Repr

/-- Reasons for a step to stop the machine with a fault: none. Every fatal condition of the spec (60_exceptions.md R170) has an
entry the spec describes (R172) and is taken as a next state whose run state is crashed (log 2). -/
inductive Fault
deriving DecidableEq, Repr

/-- Reasons for a step to be refused. -/
inductive Refusal
  /-- Raised only by an arm of `exec` whose instruction has no meaning yet; no arm is left so. Safe. -/
  | notModelled (mnemonic : String)
deriving DecidableEq, Repr

end Sys2Proof.Machine

namespace Sys2Proof.Machine

/-- The state of the machine (the tuple at the head of 10_state.md), the environment's streams and pins beside it, and the
build's parameters. -/
structure State where
  /-- R5: the build's parameters; no step and no act of the environment changes them (log 1). -/
  config : Config
  /-- R11: `x[0]` to `x[7]`. -/
  regs : Vector Word 8
  /-- R13: the word address of the next opcode word. -/
  pc : Word
  /-- R14: the last element is the top. -/
  stack : List Word
  /-- R41 to R43. -/
  mem : Memory
  /-- R17. -/
  runState : RunState
  /-- R18: the code of the fatal condition, 0 unless crashed. -/
  cause : BitVec 4
  /-- R18: the datum latched with `cause`, 0 unless crashed. -/
  faultInfo : Word
  /-- R19: the input words supplied and not yet consumed, next first. -/
  input : List Word
  /-- R19: whether the input stream has ended or failed after the words of `input` (log 12). -/
  inputEnded : Bool
  /-- R23 (a): the position of the input stream, the number of words this run has consumed (log 14). -/
  inputPos : Nat
  /-- R20: the words emitted so far, in order. -/
  output : List Word
  /-- R30 `out_ready`, `out_err`. -/
  sink : Sink
  /-- R30 `rst`. -/
  rst : Bool
deriving DecidableEq, Repr

/-- R31, R200: the machine right after `rst` is released, with the empty image. The streams' condition is the
environment's, not the spec's: DESIGN CHOICE, log 4. -/
def State.reset : State where
  config := Config.default
  regs := Vector.replicate 8 0
  pc := 0
  stack := []
  mem := []
  runState := .running
  cause := 0
  faultInfo := 0
  input := []
  inputEnded := false
  inputPos := 0
  output := []
  sink := .ready
  rst := false

end Sys2Proof.Machine
end

