-- ==== Sys2Proof/Machine/Ops.lean ====
section
/-! DEFINITION. The shared operations: the byte store, the register file, the stack, `raise` and reset
(10_state.md R15, R16, R25 to R28, 20_memory.md R42 to R48, 60_exceptions.md R170, R172). -/

namespace Sys2Proof.Machine

/-! ### The byte store -/

/-- R55: what an address nothing has written reads as. -/
def Memory.unlistedByte : Byte := 0

/-- The canonical form: addresses strictly rising, and no entry equal to what an unlisted address reads as. -/
abbrev Memory.wf (m : Memory) : Prop :=
  m.Pairwise (fun x y => x.1 < y.1) ∧ ∀ c ∈ m, c.2 ≠ Memory.unlistedByte

/-- Reads the byte at a byte address. -/
def readByte (m : Memory) (a : Nat) : Byte :=
  match m with
  | [] => Memory.unlistedByte
  | (b, x) :: rest => if b = a then x else readByte rest a

/-- Takes every entry of an address out. -/
def eraseByte (m : Memory) (a : Nat) : Memory := m.filter fun c => c.1 ≠ a

/-- Puts an entry in before the first larger address. -/
def insertByte (m : Memory) (a : Nat) (v : Byte) : Memory :=
  match m with
  | [] => [(a, v)]
  | (b, x) :: rest => if a < b then (a, v) :: (b, x) :: rest else (b, x) :: insertByte rest a v

/-- Writes the byte at a byte address, keeping the canonical form. -/
def writeByte (m : Memory) (a : Nat) (v : Byte) : Memory :=
  if v = Memory.unlistedByte then eraseByte m a else insertByte (eraseByte m a) a v

/-- R43: the word at word address `a`. -/
def readWord (m : Memory) (a : Nat) : Word := wordOfBytes (readByte m (2 * a)) (readByte m (2 * a + 1))

/-- R43: all 16 bits of a word into its two bytes (R45). -/
def writeWord (m : Memory) (a : Nat) (w : Word) : Memory :=
  writeByte (writeByte m (2 * a) (lowByte w)) (2 * a + 1) (highByte w)

/-- R55: words at ascending word addresses from `a`. -/
def storeWords (m : Memory) (a : Nat) (ws : List Word) : Memory :=
  match ws with
  | [] => m
  | w :: ws => storeWords (writeWord m a w) (a + 1) ws

/-- Words at the addresses the fetch at `a` reads them from (R80: the address wraps modulo 65536); a word whose address is
outside memory has no place and is dropped. -/
def placeWords (memWords : Nat) (m : Memory) (a : Word) (ws : List Word) : Memory :=
  match ws with
  | [] => m
  | w :: ws => placeWords memWords (if memWords ≤ a.toNat then m else writeWord m a.toNat w) (a + 1) ws

/-! ### Fatal conditions and the crash -/

/-- R170: the fatal conditions. -/
inductive FatalCondition
  | programNotFound
  | invalidRegister
  | valueOutOfRange
  | literalExpected
  | stackUnderflow
  | unknownOpcode
  | inputFailure
  | addressOutOfRange
  | divideByZero
  | stackOverflow
  | outputFailure
deriving DecidableEq, Repr

/-- R170, first column. -/
def FatalCondition.code : FatalCondition → BitVec 4
  | .programNotFound => 1
  | .invalidRegister => 2
  | .valueOutOfRange => 3
  | .literalExpected => 4
  | .stackUnderflow => 5
  | .unknownOpcode => 6
  | .inputFailure => 7
  | .addressOutOfRange => 8
  | .divideByZero => 9
  | .stackOverflow => 10
  | .outputFailure => 11

/-- R172 `raise E(info)`, the only trap entry: nothing is saved, `pc` stays where the step had it (R173), and there is no
return from it (R176). -/
def raise (e : FatalCondition) (info : Word) (s : State) : State :=
  { s with runState := .crashed, cause := e.code, faultInfo := info }

/-- R17: the 2-bit output `run_state`. -/
def RunState.code : RunState → BitVec 2
  | .running => 0
  | .halted => 1
  | .crashed => 2

/-! ### The program counter -/

def setPc (t : Word) (s : State) : State := { s with pc := t }

/-- R13, R89: past `n` fetched words, modulo 65536 (D3). -/
def advance (n : Nat) (s : State) : State := setPc (s.pc + BitVec.ofNat 16 n) s

/-! ### The register file, R25 -/

def readReg (s : State) (r : Reg) : Word := s.regs[r.val]

/-- R12: all 16 bits, no masking. -/
def writeReg (r : Reg) (v : Word) (s : State) : State := { s with regs := s.regs.set r.val v r.isLt }

/-! ### The stack controller, R27 -/

/-- R15: whether one more entry would pass `STACK_DEPTH`. -/
def stackFull (s : State) : Bool :=
  match s.config.stackDepth with
  | none => false
  | some d => decide (s.stack.length = d)

/-- R15 `Push(v)`, then `k`. -/
def push (v : Word) (s : State) (k : State → State) : State :=
  if stackFull s then raise .stackOverflow v s else k { s with stack := s.stack ++ [v] }

/-- R16 `Pop()`, then `k` with the word. -/
def pop (s : State) (k : Word → State → State) : State :=
  match s.stack.getLast? with
  | none => raise .stackUnderflow 0 s
  | some v => k v { s with stack := s.stack.dropLast }

/-! ### The memory interface, R28 -/

/-- R48: whether a word address is outside memory. -/
def outOfRange (s : State) (a : Word) : Bool := decide (s.config.memWords ≤ a.toNat)

/-- R46 `MemRead(a, 1)`, then `k` with the word. -/
def memRead (a : Word) (s : State) (k : Word → State) : State :=
  if outOfRange s a then raise .addressOutOfRange a s else k (readWord s.mem a.toNat)

/-- R47 `MemWrite(a, 1, v)`. -/
def memWrite (a v : Word) (s : State) : State :=
  if outOfRange s a then raise .addressOutOfRange a s else { s with mem := writeWord s.mem a.toNat v }

/-! ### The streams -/

/-- R160 `Emit(c)`. `start` is the state in which the step began: a hold changes nothing, so the step answers it and the
next step tries again (log 3). -/
def emit (start : State) (c : Word) (s : State) : State :=
  match s.sink with
  | .ready => { s with output := s.output ++ [c] }
  | .busy => start
  | .failed => raise .outputFailure c s

/-- R162 `Receive()`, then `k` with the word; the hold as in `emit` (log 3). -/
def receive (start : State) (s : State) (k : Word → State → State) : State :=
  match s.input with
  | c :: rest => k c { s with input := rest, inputPos := s.inputPos + 1 }
  | [] => if s.inputEnded then raise .inputFailure 0 s else start

/-! ### Reset -/

/-- R31, R200, R202: what the core does while `rst` is asserted. Memory is not cleared by the core, and the input stream and
the sink are the environment's (log 11). -/
def applyReset (s : State) : State :=
  { s with
    regs := Vector.replicate 8 0
    pc := 0
    stack := []
    runState := .running
    cause := 0
    faultInfo := 0
    inputPos := 0
    output := [] }

end Sys2Proof.Machine
end

