-- ==== Sys2Proof/Machine/Operands.lean ====
section
/-! DEFINITION. Operand values and the four word readers (30_encoding.md R63, 40_decoder.md R80 to R85). -/

namespace Sys2Proof.Machine

/-- R63, R85: a literal is itself; a register word yields that register's content, all 16 bits, never classified again. -/
def value (s : State) (o : Operand) : Word :=
  match o with
  | .lit v => v
  | .reg r => readReg s r

/-- R80 `FetchWord()`, then `k` with the word and the advanced state. -/
def fetchWord (s : State) (k : Word → State → State) : State :=
  memRead s.pc s fun w => k w (advance 1 s)

/-- R82 `ReadRegAddr()`, then `k` with the index. -/
def readRegAddr (s : State) (k : Reg → State → State) : State :=
  fetchWord s fun w s => if isReg w then k (regIndex w) s else raise .invalidRegister w s

/-- R83 `ReadValue()`, then `k` with the value. -/
def readValue (s : State) (k : Word → State → State) : State :=
  fetchWord s fun w s =>
    if isInvalid w then raise .valueOutOfRange w s
    else if isReg w then k (readReg s (regIndex w)) s
    else k w s

/-- R84 `ReadOpcodeLiteral()`, then `k` with the literal; no instruction uses it (R185). -/
def readOpcodeLiteral (s : State) (k : Word → State → State) : State :=
  fetchWord s fun w s => if isStrictLiteral w then k w s else raise .literalExpected w s

end Sys2Proof.Machine
end

