-- ==== Sys2Proof/Machine/Alu.lean ====
section
/-! DEFINITION. The ALU (10_state.md R26) and its eight instructions (42_alu.md R110 to R119). Results are computed on unbounded
integers and narrowed at the end. -/

namespace Sys2Proof.Machine

/-- R111, on all 16 bits. -/
def aluEq (a b : Word) : Word := conditionWord (decide (a = b))

/-- R112, unsigned. -/
def aluGt (a b : Word) : Word := conditionWord (decide (a.toNat > b.toNat))

/-- R113. -/
def aluAdd (a b : Word) : Word := BitVec.ofNat 16 ((a.toNat + b.toNat) % modulus)

/-- R114. -/
def aluMult (a b : Word) : Word := BitVec.ofNat 16 ((a.toNat * b.toNat) % modulus)

/-- R115, for a divisor that is not 0; no reduction modulo 32768. -/
def aluMod (a b : Word) : Word := BitVec.ofNat 16 (a.toNat % b.toNat)

/-- R116, all 16 bits. -/
def aluAnd (a b : Word) : Word := a &&& b

/-- R117, all 16 bits. -/
def aluOr (a b : Word) : Word := a ||| b

/-- R118: 15-bit complement, bit 15 of the result 0. -/
def aluNot (a : Word) : Word := ~~~a &&& 0x7FFF

def effectEq (d : Reg) (a b : Word) (s : State) : State := writeReg d (aluEq a b) s
def effectGt (d : Reg) (a b : Word) (s : State) : State := writeReg d (aluGt a b) s
def effectAdd (d : Reg) (a b : Word) (s : State) : State := writeReg d (aluAdd a b) s
def effectMult (d : Reg) (a b : Word) (s : State) : State := writeReg d (aluMult a b) s

/-- R115: a zero divisor is `DivideByZero(a)`, before any write. -/
def effectMod (d : Reg) (a b : Word) (s : State) : State :=
  if b = 0 then raise .divideByZero a s else writeReg d (aluMod a b) s

def effectAnd (d : Reg) (a b : Word) (s : State) : State := writeReg d (aluAnd a b) s
def effectOr (d : Reg) (a b : Word) (s : State) : State := writeReg d (aluOr a b) s
def effectNot (d : Reg) (a : Word) (s : State) : State := writeReg d (aluNot a) s

def execEq (d : Reg) (a b : Operand) (s : State) : Host.Outcome State Fault Refusal :=
  .next (effectEq d (value s a) (value s b) (advance 4 s))

def execGt (d : Reg) (a b : Operand) (s : State) : Host.Outcome State Fault Refusal :=
  .next (effectGt d (value s a) (value s b) (advance 4 s))

def execAdd (d : Reg) (a b : Operand) (s : State) : Host.Outcome State Fault Refusal :=
  .next (effectAdd d (value s a) (value s b) (advance 4 s))

def execMult (d : Reg) (a b : Operand) (s : State) : Host.Outcome State Fault Refusal :=
  .next (effectMult d (value s a) (value s b) (advance 4 s))

def execMod (d : Reg) (a b : Operand) (s : State) : Host.Outcome State Fault Refusal :=
  .next (effectMod d (value s a) (value s b) (advance 4 s))

def execAnd (d : Reg) (a b : Operand) (s : State) : Host.Outcome State Fault Refusal :=
  .next (effectAnd d (value s a) (value s b) (advance 4 s))

def execOr (d : Reg) (a b : Operand) (s : State) : Host.Outcome State Fault Refusal :=
  .next (effectOr d (value s a) (value s b) (advance 4 s))

def execNot (d : Reg) (a : Operand) (s : State) : Host.Outcome State Fault Refusal :=
  .next (effectNot d (value s a) (advance 3 s))

end Sys2Proof.Machine
end

