-- ==== Sys2Proof/Machine/Control.lean ====
section
/-! DEFINITION. Control transfer and machine control: `halt`, `jmp`, `jt`, `jf`, `call`, `ret`, `noop` (43_control.md). No
transfer checks its target (R137). -/

namespace Sys2Proof.Machine

/-- R130: the only graceful end. -/
def effectHalt (s : State) : State := { s with runState := .halted }

/-- R131. -/
def effectJmp (t : Word) (s : State) : State := setPc t s

/-- R132. -/
def effectJt (c t : Word) (s : State) : State := if conditionHolds c then setPc t s else s

/-- R133. -/
def effectJf (c t : Word) (s : State) : State := if conditionHolds c then s else setPc t s

/-- R134: the pushed word is the address after the operand (R89). -/
def effectCall (t : Word) (s : State) : State := push s.pc s fun s => setPc t s

/-- R135: on an empty stack a crash, never a halt (90_conflicts.md C2). -/
def effectRet (s : State) : State := pop s fun t s => setPc t s

/-- R136. -/
def effectNoop (s : State) : State := s

def execHalt (s : State) : Host.Outcome State Fault Refusal := .next (effectHalt (advance 1 s))

def execJmp (t : Operand) (s : State) : Host.Outcome State Fault Refusal :=
  .next (effectJmp (value s t) (advance 2 s))

def execJt (c t : Operand) (s : State) : Host.Outcome State Fault Refusal :=
  .next (effectJt (value s c) (value s t) (advance 3 s))

def execJf (c t : Operand) (s : State) : Host.Outcome State Fault Refusal :=
  .next (effectJf (value s c) (value s t) (advance 3 s))

def execCall (t : Operand) (s : State) : Host.Outcome State Fault Refusal :=
  .next (effectCall (value s t) (advance 2 s))

def execRet (s : State) : Host.Outcome State Fault Refusal := .next (effectRet (advance 1 s))

def execNoop (s : State) : Host.Outcome State Fault Refusal := .next (effectNoop (advance 1 s))

end Sys2Proof.Machine
end

