-- ==== Sys2Proof/Machine/Io.lean ====
section
/-! DEFINITION. `out` and `in` (45_io.md). `start` is the state a hold answers (log 3). -/

namespace Sys2Proof.Machine

/-- R161: `Emit(c)`. -/
def effectOut (start : State) (c : Word) (s : State) : State := emit start c s

/-- R163: `c <- Receive(); x[d] <- c`. -/
def effectIn (start : State) (d : Reg) (s : State) : State := receive start s fun c s => writeReg d c s

def execOut (c : Operand) (s : State) : Host.Outcome State Fault Refusal :=
  .next (effectOut s (value s c) (advance 2 s))

def execIn (d : Reg) (s : State) : Host.Outcome State Fault Refusal :=
  .next (effectIn s d (advance 2 s))

end Sys2Proof.Machine
end

