-- ==== Sys2Proof/Machine/MemoryOps.lean ====
section
/-! DEFINITION. `rmem` and `wmem` (44_memory_ops.md): direct indexed access, `pc` untouched by it (R152). -/

namespace Sys2Proof.Machine

/-- R150: `v <- MemRead(m, 1); x[d] <- v`. -/
def effectRmem (d : Reg) (m : Word) (s : State) : State := memRead m s fun v => writeReg d v s

/-- R151: `MemWrite(m, 1, v)`. -/
def effectWmem (m v : Word) (s : State) : State := memWrite m v s

def execRmem (d : Reg) (m : Operand) (s : State) : Host.Outcome State Fault Refusal :=
  .next (effectRmem d (value s m) (advance 3 s))

def execWmem (m v : Operand) (s : State) : Host.Outcome State Fault Refusal :=
  .next (effectWmem (value s m) (value s v) (advance 3 s))

end Sys2Proof.Machine
end

