-- ==== Sys2Proof/Machine/MoveStack.lean ====
section
/-! DEFINITION. `set`, `push`, `pop` (41_move_and_stack.md). An `effect…` is the part of a rule's pseudocode after its reader
calls, on resolved operands and with `pc` past the instruction (R87, R89); an `exec…` is the whole instruction from the
state in which its opcode word is at `pc`. -/

namespace Sys2Proof.Machine

/-- R100: `x[d] <- v`. -/
def effectSet (d : Reg) (v : Word) (s : State) : State := writeReg d v s

/-- R101: `Push(v)`. -/
def effectPush (v : Word) (s : State) : State := push v s fun s => s

/-- R102: `v <- Pop(); x[d] <- v`. -/
def effectPop (d : Reg) (s : State) : State := pop s fun v s => writeReg d v s

def execSet (d : Reg) (v : Operand) (s : State) : Host.Outcome State Fault Refusal :=
  .next (effectSet d (value s v) (advance 3 s))

def execPush (v : Operand) (s : State) : Host.Outcome State Fault Refusal :=
  .next (effectPush (value s v) (advance 2 s))

def execPop (d : Reg) (s : State) : Host.Outcome State Fault Refusal :=
  .next (effectPop d (advance 2 s))

end Sys2Proof.Machine
end

