-- ==== Sys2Proof/Machine/Fetch.lean ====
section
/-! DEFINITION. Fetching and decoding the instruction at `pc` (40_decoder.md R80, R86, R87): the words at `pc` that lie inside
memory, at most four (R60), are given to the decoder, which takes them one by one (log 10). -/

namespace Sys2Proof.Machine

/-- The words at `a`, `a + 1`, … modulo 65536, at most `n`, ending before the first address outside memory (R48). -/
def windowFrom (memWords : Nat) (m : Memory) (a : Word) (n : Nat) : List Word :=
  match n with
  | 0 => []
  | n + 1 => if memWords ≤ a.toNat then [] else readWord m a.toNat :: windowFrom memWords m (a + 1) n

/-- The words a fetch at `pc` can take. -/
def fetchWindow (s : State) : List Word := windowFrom s.config.memWords s.mem s.pc 4

/-- What the decoder answers at `pc`. -/
def decodeAt (s : State) : Decoded := decodeWords (fetchWindow s)

/-- R82, R83, R86, R48: the fatal condition of a rejected instruction; `pc` stands past the `used` words fetched (R173), for
`truncated` at the address that could not be fetched. -/
def crashOnReject (e : DecodeError) (used : Nat) (s : State) : State :=
  match e with
  | .unknownOpcode w => raise .unknownOpcode w (advance used s)
  | .invalidRegister w => raise .invalidRegister w (advance used s)
  | .valueOutOfRange w => raise .valueOutOfRange w (advance used s)
  | .truncated => raise .addressOutOfRange (advance used s).pc (advance used s)

/-- The state whose next fetch reads the words of a row (log 7): they stand at `pc`, the core is running and out of reset. -/
def placeAtFetch (ws : List Word) (s : State) : State :=
  { s with
    mem := placeWords s.config.memWords s.mem s.pc ws
    runState := .running
    rst := false }

end Sys2Proof.Machine
end

