-- ==== Sys2Proof/Machine/Step.lean ====
section
/-! DEFINITION. One step of the core (40_decoder.md R86), and the state that fetches a given word next. -/

namespace Sys2Proof.Machine

/-- R86: a decoded instruction is executed; a rejected one is the crash its rejection names. -/
def runDecoded (d : Decoded) (s : State) : Host.Outcome State Fault Refusal :=
  match d with
  | .instr i _ _ => exec i s
  | .rejected e used => .next (crashOnReject e used s)

/-- R200: under `rst` the core holds the reset state. R17: halted and crashed are terminal. R86: otherwise the instruction at
`pc` is decoded and executed, or its rejection is a crash. Every step answers a next state. -/
def step (s : State) : Host.Outcome State Fault Refusal :=
  if s.rst then .next (applyReset s)
  else
    match s.runState with
    | .halted => .next s
    | .crashed => .next s
    | .running => runDecoded (decodeAt s) s

/-- The host's placing of a row's word where the next step fetches (log 6, log 7). -/
def State.withFetchWord (s : State) (nbits w : Nat) : State := placeAtFetch (tableWords nbits w) s

end Sys2Proof.Machine
end

