-- ==== Sys2Proof/Machine/Environment.lean ====
section
/-! DEFINITION. What the environment may do between steps, and what the host reads (00_scope.md R8, 20_memory.md R55,
70_reset_and_hazards.md R200 to R205, R212). -/

namespace Sys2Proof.Machine

/-- The moves of the core and of its environment (log 3, log 11). -/
inductive Move
  /-- The core takes one step. -/
  | core
  /-- R200, R202: `rst` is asserted; at any time. -/
  | assertReset
  /-- R203, R204, R212: the host starts a run with an image file, none where it is missing or unreadable: if it admits the
  image it rewrites all of memory, connects the streams and releases `rst`, and otherwise it does not start the core. -/
  | startRun (file : Option (List Byte)) (input : List Word) (ended : Bool) (sink : Sink)
  /-- R162: the environment supplies one more input word. -/
  | supply (w : Word)
  /-- R162: the input stream ends. -/
  | endInput
  /-- R162: the input stream fails: what was not consumed is lost. -/
  | failInput
  /-- R160: the sink's condition changes. -/
  | sinkTo (k : Sink)
deriving DecidableEq, Repr

/-- R203, R212: why the host does not start the core. -/
inductive StartRefusal
  /-- R184 `ProgramNotFound`: the image file is missing or unreadable. -/
  | programNotFound
  /-- R55, D19: an odd byte count. -/
  | oddByteCount
  /-- R55, D19: more than `MEM_WORDS` words. -/
  | imageTooLong
deriving DecidableEq, Repr

/-- R55, D19: an image of more than `MEM_WORDS` words does not fit. -/
def imageFits (c : Config) (image : List Word) : Bool := decide (image.length ≤ c.memWords)

/-- R55, D19: the words of an image file, if its byte count is even. -/
def imageOfBytes (bs : List Byte) : Option (List Word) :=
  if bs.length % 2 = 0 then some (wordsOfBytes bs) else none

/-- R55, R203: the image the host admits from a file, or why it refuses it. That a file both odd and too long is reported as odd is
the model's choice: DESIGN CHOICE, log 17. -/
def admitImage (c : Config) (file : Option (List Byte)) : Except StartRefusal (List Word) :=
  match file with
  | none => .error .programNotFound
  | some bs =>
    match imageOfBytes bs with
    | none => .error .oddByteCount
    | some image => if imageFits c image then .ok image else .error .imageTooLong

/-- R55, R203, R204: memory is the image, then zeros; the streams are connected; `rst` is released. -/
def release (image input : List Word) (ended : Bool) (sink : Sink) (s : State) : State :=
  { s with mem := storeWords [] 0 image, input := input, inputEnded := ended, sink := sink, rst := false }

/-- R203: the host acts only while `rst` is asserted (log 11), and a refused image leaves the core held in reset. -/
def startRun (file : Option (List Byte)) (input : List Word) (ended : Bool) (sink : Sink) (s : State) : State :=
  if s.rst then
    match admitImage s.config file with
    | .ok image => release image input ended sink s
    | .error _ => s
  else s

/-- The state after a move. A move the host may not make leaves the state as it is (log 11). -/
def applyMove (m : Move) (s : State) : State :=
  match m with
  | .core =>
    match step s with
    | .next t => t
    | .fault _ => s
    | .refused _ => s
  | .assertReset => applyReset { s with rst := true }
  | .startRun file input ended sink => startRun file input ended sink s
  | .supply w => if s.inputEnded then s else { s with input := s.input ++ [w] }
  | .endInput => { s with inputEnded := true }
  | .failInput => { s with input := [], inputEnded := true }
  | .sinkTo k => { s with sink := k }

/-- A sequence of moves, first move first. -/
def applyMoves (ms : List Move) (s : State) : State :=
  match ms with
  | [] => s
  | m :: ms => applyMoves ms (applyMove m s)

/-- R202, R203: the host's whole way to a new run: reset, then the start. -/
def boot (file : Option (List Byte)) (input : List Word) (ended : Bool) (sink : Sink) (s : State) : State :=
  applyMoves [.assertReset, .startRun file input ended sink] s

/-- R212: what the host reports: before a run it does not start, or when a run has ended. -/
inductive Report
  /-- R184, R203: the core is not started. -/
  | notStarted (why : StartRefusal)
  /-- `run_state` = halted. -/
  | success
  /-- `run_state` = crashed; the diagnostic names `cause`. -/
  | failure (cause : BitVec 4)
deriving DecidableEq, Repr

/-- R184, R212: the host's report before the run, none if it starts the core. -/
def startReport (c : Config) (file : Option (List Byte)) : Option Report :=
  match admitImage c file with
  | .ok _ => none
  | .error why => some (.notStarted why)

/-- R205, R212: the host's report of a started run, none while the run goes on. -/
def hostReport (s : State) : Option Report :=
  match s.runState with
  | .running => none
  | .halted => some .success
  | .crashed => some (.failure s.cause)

/-- R212: the host's console holds the core's output words, and after a halt the completion line (log 13). -/
def hostConsole (s : State) : List Word :=
  match s.runState with
  | .halted => s.output ++ Config.haltMessage
  | .running => s.output
  | .crashed => s.output

end Sys2Proof.Machine
end

