-- ==== Sys2Proof/Machine/Executor.lean ====
section
/-! DEFINITION. The executor as 40_decoder.md R86 and R88 write it: the opcode word is fetched, then each operand word is read and
checked on the state by its reader, then the effect is performed. `step` decodes first and executes the instruction; an
obligation states that the two agree. -/

namespace Sys2Proof.Machine

/-- R88, row by row. `start` is the state in which the step began. -/
def executeOpcode (start : State) (op : Word) (s : State) : State :=
  match op.toNat with
  | 0 => effectHalt s
  | 1 => readRegAddr s fun d s => readValue s fun v s => effectSet d v s
  | 2 => readValue s fun v s => effectPush v s
  | 3 => readRegAddr s fun d s => effectPop d s
  | 4 => readRegAddr s fun d s => readValue s fun a s => readValue s fun b s => effectEq d a b s
  | 5 => readRegAddr s fun d s => readValue s fun a s => readValue s fun b s => effectGt d a b s
  | 6 => readValue s fun t s => effectJmp t s
  | 7 => readValue s fun c s => readValue s fun t s => effectJt c t s
  | 8 => readValue s fun c s => readValue s fun t s => effectJf c t s
  | 9 => readRegAddr s fun d s => readValue s fun a s => readValue s fun b s => effectAdd d a b s
  | 10 => readRegAddr s fun d s => readValue s fun a s => readValue s fun b s => effectMult d a b s
  | 11 => readRegAddr s fun d s => readValue s fun a s => readValue s fun b s => effectMod d a b s
  | 12 => readRegAddr s fun d s => readValue s fun a s => readValue s fun b s => effectAnd d a b s
  | 13 => readRegAddr s fun d s => readValue s fun a s => readValue s fun b s => effectOr d a b s
  | 14 => readRegAddr s fun d s => readValue s fun a s => effectNot d a s
  | 15 => readRegAddr s fun d s => readValue s fun m s => effectRmem d m s
  | 16 => readValue s fun m s => readValue s fun v s => effectWmem m v s
  | 17 => readValue s fun t s => effectCall t s
  | 18 => effectRet s
  | 19 => readValue s fun c s => effectOut start c s
  | 20 => readRegAddr s fun d s => effectIn start d s
  | 21 => effectNoop s
  | _ => raise .unknownOpcode op s

/-- R86: one step of a running core out of reset. -/
def executorStep (s : State) : State := fetchWord s fun op s' => executeOpcode s op s'

end Sys2Proof.Machine
end

