-- ==== Sys2Proof/Safety.lean ====
section
/-! DEFINITION. The terms the statements use: the invariant, what counts as a good run, the frames, the fifteen-bit property. -/

namespace Sys2Proof.Machine

/-! ### Runs -/

/-- R17, R86: the core takes instructions: it is running and out of reset. -/
def State.active (s : State) : Prop := s.runState = .running ∧ s.rst = false

/-- `t` is reached from `s` by moves of the core and of the environment. -/
def Reaches (s t : State) : Prop := ∃ ms : List Move, applyMoves ms s = t

/-! ### The invariant -/

/-- R170: the conditions the core itself can latch: not `ProgramNotFound` (R184), not `LiteralExpected` (R185). -/
def FatalCondition.latched (e : FatalCondition) : Prop := e ≠ .programNotFound ∧ e ≠ .literalExpected

/-- R18: `cause` and `fault_info` are 0 unless crashed, and a crash has one of the core's codes. -/
def statusCoherent (s : State) : Prop :=
  (s.runState = .crashed → ∃ e : FatalCondition, e.latched ∧ s.cause = e.code) ∧
  (s.runState ≠ .crashed → s.cause = 0 ∧ s.faultInfo = 0)

/-- R14, R15: a finite stack never holds more than `STACK_DEPTH` entries. -/
def stackWithinDepth (s : State) : Prop := ∀ d, s.config.stackDepth = some d → s.stack.length ≤ d

/-- R43: the byte store has `2 * MEM_WORDS` bytes, and is in its canonical form. -/
def memoryLegal (s : State) : Prop := Memory.wf s.mem ∧ ∀ c ∈ s.mem, c.1 < 2 * s.config.memWords

/-- R200: while `rst` is asserted the core's own state is the reset state. -/
def resetHeld (s : State) : Prop := s.rst = true → applyReset s = s

/-- What every move keeps. -/
structure State.Inv (s : State) : Prop where
  config : s.config.wf = true
  memory : memoryLegal s
  stack : stackWithinDepth s
  status : statusCoherent s
  reset : resetHeld s

/-! ### Frames -/

/-- Every byte of memory reads as before. -/
def SameMemory (s t : State) : Prop := ∀ a, readByte t.mem a = readByte s.mem a

/-- Every register but those in `ds` reads as before. -/
def SameRegsBut (ds : List Reg) (s t : State) : Prop := ∀ r, r ∉ ds → readReg t r = readReg s r

/-- The streams are as before (the environment's side and the position). -/
def SameInput (s t : State) : Prop :=
  t.input = s.input ∧ t.inputEnded = s.inputEnded ∧ t.inputPos = s.inputPos

/-- The output stream and its sink are as before. -/
def SameOutput (s t : State) : Prop := t.output = s.output ∧ t.sink = s.sink

/-- The status outputs are as before. -/
def SameStatus (s t : State) : Prop :=
  t.runState = s.runState ∧ t.cause = s.cause ∧ t.faultInfo = s.faultInfo

/-- The build and the reset input are as before. -/
def SameBuild (s t : State) : Prop := t.config = s.config ∧ t.rst = s.rst

/-- R173: what a crash leaves as it was: registers, memory, stack, both streams, build and reset input. -/
def SameBesidesStatusAndPc (s t : State) : Prop :=
  t.regs = s.regs ∧ SameMemory s t ∧ t.stack = s.stack ∧ SameInput s t ∧ SameOutput s t ∧ SameBuild s t

/-- The frame of an instruction whose effects, beside `pc`, are on the registers in `ds` and on the stack, which becomes
`st`. -/
def OnlyRegsAndStack (ds : List Reg) (st : List Word) (s t : State) : Prop :=
  SameRegsBut ds s t ∧ SameMemory s t ∧ t.stack = st ∧ SameInput s t ∧ SameOutput s t ∧ SameStatus s t ∧ SameBuild s t

/-- The frame of an instruction whose one effect, beside `pc`, is on the registers in `ds`. -/
def OnlyRegs (ds : List Reg) (s t : State) : Prop := OnlyRegsAndStack ds s.stack s t

/-- R172: `t` is crashed by `e` with datum `info` at `pc`, and everything R173 freezes is as in `s`. -/
def CrashedBy (e : FatalCondition) (info pc : Word) (s t : State) : Prop :=
  t.runState = .crashed ∧ t.cause = e.code ∧ t.faultInfo = info ∧ t.pc = pc ∧ SameBesidesStatusAndPc s t

/-! ### Whole-machine rules -/

/-- R12: the register an instruction names as its write target, if it has one. -/
def writeTarget : Instr → Option Reg
  | .set d _ => some d
  | .pop d => some d
  | .not d _ => some d
  | .rmem d _ => some d
  | .inp d => some d
  | .eq d _ _ => some d
  | .gt d _ _ => some d
  | .add d _ _ => some d
  | .mult d _ _ => some d
  | .mod d _ _ => some d
  | .and d _ _ => some d
  | .or d _ _ => some d
  | .halt => none
  | .push _ => none
  | .jmp _ => none
  | .jt _ _ => none
  | .jf _ _ => none
  | .wmem _ _ => none
  | .call _ => none
  | .ret => none
  | .out _ => none
  | .noop => none

/-- R14: the instructions that may read or change the stack. -/
def usesStack : Instr → Bool
  | .push _ => true
  | .pop _ => true
  | .call _ => true
  | .ret => true
  | .halt => false
  | .set _ _ => false
  | .eq _ _ _ => false
  | .gt _ _ _ => false
  | .jmp _ => false
  | .jt _ _ => false
  | .jf _ _ => false
  | .add _ _ _ => false
  | .mult _ _ _ => false
  | .mod _ _ _ => false
  | .and _ _ _ => false
  | .or _ _ _ => false
  | .not _ _ => false
  | .rmem _ _ => false
  | .wmem _ _ => false
  | .out _ => false
  | .inp _ => false
  | .noop => false

/-- R13, R137: the instructions that may overwrite `pc`. -/
def transfersControl : Instr → Bool
  | .jmp _ => true
  | .jt _ _ => true
  | .jf _ _ => true
  | .call _ => true
  | .ret => true
  | .halt => false
  | .set _ _ => false
  | .push _ => false
  | .pop _ => false
  | .eq _ _ _ => false
  | .gt _ _ _ => false
  | .add _ _ _ => false
  | .mult _ _ _ => false
  | .mod _ _ _ => false
  | .and _ _ _ => false
  | .or _ _ _ => false
  | .not _ _ => false
  | .rmem _ _ => false
  | .wmem _ _ => false
  | .out _ => false
  | .inp _ => false
  | .noop => false

/-- R160, R162: the instruction would hold: `out` on a sink that is not ready, `in` with no word and no end of input. -/
def holds (i : Instr) (s : State) : Prop :=
  (∃ c, i = .out c ∧ s.sink = .busy) ∨ (∃ d, i = .inp d ∧ s.input = [] ∧ s.inputEnded = false)

/-! ### An instruction's words in memory -/

/-- The address of the `k`-th word of an instruction at `pc` (R13, R80). -/
def wordAddr (s : State) (k : Nat) : Word := s.pc + BitVec.ofNat 16 k

/-- R48, R86: the first `k` words of `i` stand at `pc` and lie inside memory. -/
def PrefixAt (i : Instr) (k : Nat) (s : State) : Prop :=
  ∀ j w, ((encode i).take k)[j]? = some w →
    (wordAddr s j).toNat < s.config.memWords ∧ readWord s.mem (wordAddr s j).toNat = w

/-- All words of `i` stand at `pc` and lie inside memory. -/
def InstrAt (i : Instr) (s : State) : Prop := PrefixAt i i.length s

/-- R63: the kinds of operand. -/
inductive Kind
  | reg
  | val
deriving DecidableEq, Repr

/-- R61: the kinds of a format's operand words, in order. -/
def Format.kinds : Format → List Kind
  | .N => []
  | .R => [.reg]
  | .V => [.val]
  | .RV => [.reg, .val]
  | .VV => [.val, .val]
  | .RVV => [.reg, .val, .val]

/-- R66, R67: the fatal condition a word `w` is as the `k`-th word of an instruction of format `f`, if it is one. -/
def illegalAt (f : Format) (k : Nat) (w : Word) : Option FatalCondition :=
  match k with
  | 0 => if 22 ≤ w.toNat then some .unknownOpcode else none
  | k + 1 =>
    match (Format.kinds f)[k]? with
    | some .reg => if w.toNat < 32768 ∨ 32775 < w.toNat then some .invalidRegister else none
    | some .val => if 32775 < w.toNat then some .valueOutOfRange else none
    | none => none

/-- R87 (a), R174 (1) to (3), for an instruction `i` whose first `k` words have been fetched and found good: the next word
outside memory is `AddressOutOfRange` with `pc` at it, and an illegal next word is its fatal condition with `pc` past it;
whatever stands after it. -/
def ChecksWords (i : Instr) : Prop :=
  i.wf = true → ∀ (s : State) (k : Nat), s.active → k < i.length → PrefixAt i k s →
    (s.config.memWords ≤ (wordAddr s k).toNat →
      ∃ t, step s = .next t ∧ CrashedBy .addressOutOfRange (wordAddr s k) (wordAddr s k) s t) ∧
    (∀ w e, (wordAddr s k).toNat < s.config.memWords → readWord s.mem (wordAddr s k).toNat = w →
      illegalAt i.format k w = some e →
      ∃ t, step s = .next t ∧ CrashedBy e w (wordAddr s (k + 1)) s t)

/-! ### Fifteen-bit closure, R32 -/

/-- R32: every register and every stack entry holds a value of at most 32767. -/
def FifteenBit (s : State) : Prop :=
  (∀ r, (readReg s r).toNat ≤ 32767) ∧ ∀ v ∈ s.stack, v.toNat ≤ 32767

/-- R32 (a), (b), (c) for one move: if it is a step of the running core, the word an executed `rmem` reads, the word an
executed `in` receives, and the address an executed `call` pushes (on a stack with room) are at most 32767. -/
def FifteenBitPremises (m : Move) (s : State) : Prop :=
  m = .core → s.active →
    (∀ d a rest n, decodeAt s = .instr (.rmem d a) rest n → (value s a).toNat < s.config.memWords →
      (readWord s.mem (value s a).toNat).toNat ≤ 32767) ∧
    (∀ d w ws rest n, decodeAt s = .instr (.inp d) rest n → s.input = w :: ws → w.toNat ≤ 32767) ∧
    (∀ t rest n, decodeAt s = .instr (.call t) rest n → s.config.stackDepth ≠ some s.stack.length →
      (s.pc + 2).toNat ≤ 32767)

end Sys2Proof.Machine
end

