-- ==== Sys2Proof/Certificates/Slice0/Obligations.lean ====
section
/-! DEFINITION. The statements about the model, from the numbered rules of spec/. A statement about one instruction says its
encoding, the checks of its words (`ChecksWords`), its effect with its frame from every state, and its own fatal condition. -/

open Sys2Proof Sys2Proof.Machine

/-! ### Encoding and decoding -/

/-- R60, R64: the decoder reads back every well-formed instruction from its words, whatever follows them. -/
def Obligations.DecodeEncodeRoundTrip : Prop :=
  ∀ (i : Instr) (rest : List Word), i.wf = true → decodeWords (encode i ++ rest) = .instr i rest i.length

/-- R69: the same from the bytes of the byte store, low byte first. -/
def Obligations.DecodeBytesRoundTrip : Prop :=
  ∀ (i : Instr) (rest : List Word), i.wf = true →
    decodeBytes (encodeBytes i ++ bytesOfWords rest) = .instr i rest i.length

/-- R62 to R64: words that decode are the encoding of the one well-formed instruction they decode to. -/
def Obligations.DecodedWordsAreTheEncoding : Prop :=
  ∀ (ws : List Word) (i : Instr) (rest : List Word) (n : Nat), decodeWords ws = .instr i rest n →
    i.wf = true ∧ ws = encode i ++ rest ∧ n = i.length

/-- R65: the opcode word alone fixes the format and the number of words. -/
def Obligations.OpcodeFixesLength : Prop :=
  ∀ (op : Word) (ws ws' : List Word) (i j : Instr) (rest rest' : List Word) (n m : Nat),
    decodeWords (op :: ws) = .instr i rest n → decodeWords (op :: ws') = .instr j rest' m →
      n = m ∧ i.format = j.format

/-- R66: every opcode word of 22 or more is rejected, and no word after it is looked at. -/
def Obligations.IllegalOpcodeRejected : Prop :=
  ∀ (op : Word) (ws : List Word), 22 ≤ op.toNat → decodeWords (op :: ws) = .rejected (.unknownOpcode op) 1

/-- R81: the classes of a word, and the index of a register word. -/
def Obligations.WordClassesPartition : Prop :=
  ∀ w : Word,
    (isOpcode w = true ↔ w.toNat ≤ 21) ∧
    (isStrictLiteral w = true ↔ 22 ≤ w.toNat ∧ w.toNat ≤ 32767) ∧
    (isLiteral w = true ↔ w.toNat ≤ 32767) ∧ (isLiteral w = true ↔ w.getLsbD 15 = false) ∧
    (isReg w = true ↔ 32768 ≤ w.toNat ∧ w.toNat ≤ 32775) ∧
    (isInvalid w = true ↔ 32776 ≤ w.toNat) ∧
    ((isLiteral w = true ∧ isReg w = false ∧ isInvalid w = false) ∨
      (isLiteral w = false ∧ isReg w = true ∧ isInvalid w = false) ∨
      (isLiteral w = false ∧ isReg w = false ∧ isInvalid w = true)) ∧
    (isReg w = true → (regIndex w).val = w.toNat - 32768 ∧ (regIndex w).val = (w.extractLsb' 0 3).toNat)

/-- Words written out from R64 and R69 decode to the instructions they stand for. -/
def Obligations.SampleWordsDecode : Prop :=
  decodeBytes [0x09, 0x00, 0x00, 0x80, 0x01, 0x80, 0x04, 0x00] = .instr (.add 0 (.reg 1) (.lit 4)) [] 4 ∧
  decodeWords [1, 32770, 500] = .instr (.set 2 (.lit 500)) [] 3 ∧
  decodeWords [3, 32775, 0] = .instr (.pop 7) [0] 2 ∧
  decodeWords [17, 10] = .instr (.call (.lit 10)) [] 2 ∧
  decodeWords [16, 20, 32768] = .instr (.wmem (.lit 20) (.reg 0)) [] 3 ∧
  decodeWords [20, 32773] = .instr (.inp 5) [] 2 ∧
  decodeWords [21] = .instr .noop [] 1

/-! ### The step -/

/-- R86: where the words of a well-formed instruction stand at `pc`, a step of the running core is `exec` of it. -/
def Obligations.StepRunsDecodedInstruction : Prop :=
  ∀ (i : Instr) (s : State), s.active → i.wf = true → InstrAt i s → step s = exec i s

/-- R86, R88: decoding first and executing the instruction is the executor that reads and checks each operand word on the
state, for every state. -/
def Obligations.StepAgreesWithExecutor : Prop :=
  ∀ s : State, s.active → step s = .next (executorStep s)

/-- R87 (a), R174: the first offending word in memory order decides the fatal condition, for every instruction. -/
def Obligations.FirstOffendingWordDecides : Prop :=
  ∀ i : Instr, ChecksWords i

/-- The model's own choice (log 2): no step of any state ends in a fault or a refusal. The step of a terminal state answers that
state, and a running core's crash is the one `raise` of R172 enters, by one of the core's nine conditions. -/
def Obligations.EveryStepAnswersNext : Prop :=
  ∀ s : State, ∃ t, step s = .next t ∧ (s.rst = false → s.runState ≠ .running → t = s) ∧
    (s.active → t.runState = .crashed → ∃ e info, FatalCondition.latched e ∧ CrashedBy e info t.pc s t)

/-- R17: in a terminal state a step changes nothing, and no sequence of moves without a reset leaves it or changes the core's
own state; `run_state` is output as 0, 1, 2. -/
def Obligations.OnlyResetLeavesTerminalState : Prop :=
  RunState.running.code = 0 ∧ RunState.halted.code = 1 ∧ RunState.crashed.code = 2 ∧
  ∀ s : State, s.rst = false → s.runState ≠ .running →
    step s = .next s ∧
    ∀ ms : List Move, (∀ m ∈ ms, m ≠ .assertReset) →
      (applyMoves ms s).runState = s.runState ∧ (applyMoves ms s).regs = s.regs ∧ (applyMoves ms s).pc = s.pc ∧
      (applyMoves ms s).stack = s.stack ∧ (applyMoves ms s).mem = s.mem ∧ (applyMoves ms s).cause = s.cause ∧
      (applyMoves ms s).faultInfo = s.faultInfo ∧ (applyMoves ms s).output = s.output ∧
      (applyMoves ms s).inputPos = s.inputPos

/-- R205, R130: a step of the running core ends the run well exactly when it executes `halt`. -/
def Obligations.SuccessOnlyByHalt : Prop :=
  ∀ s t : State, s.active → step s = .next t →
    (hostReport t = some .success ↔ ∃ rest n, decodeAt s = .instr .halt rest n)

/-- R173: a crash is precise. `pc` stands past the words the step fetched, at the address that could not be fetched when the
words ended there. -/
def Obligations.CrashIsPrecise : Prop :=
  ∀ s t : State, s.active → step s = .next t → t.runState = .crashed →
    SameBesidesStatusAndPc s t ∧
    ((∃ i rest n, decodeAt s = .instr i rest n ∧ t.pc = wordAddr s n) ∨
      (∃ e n, decodeAt s = .rejected e n ∧ t.pc = wordAddr s n))

/-- R185: no step raises `LiteralExpected`; and (R170, R184) none latches `ProgramNotFound`. -/
def Obligations.LiteralExpectedNeverRaised : Prop :=
  ∀ s t : State, s.active → step s = .next t → t.runState = .crashed →
    t.cause ≠ FatalCondition.literalExpected.code ∧ t.cause ≠ FatalCondition.programNotFound.code

/-- R172: `raise`, with the codes of R170. -/
def Obligations.RaiseEntersCrash : Prop :=
  (∀ (e : FatalCondition) (info : Word) (s : State), CrashedBy e info s.pc s (raise e info s)) ∧
  FatalCondition.programNotFound.code = 1 ∧ FatalCondition.invalidRegister.code = 2 ∧
  FatalCondition.valueOutOfRange.code = 3 ∧ FatalCondition.literalExpected.code = 4 ∧
  FatalCondition.stackUnderflow.code = 5 ∧ FatalCondition.unknownOpcode.code = 6 ∧
  FatalCondition.inputFailure.code = 7 ∧ FatalCondition.addressOutOfRange.code = 8 ∧
  FatalCondition.divideByZero.code = 9 ∧ FatalCondition.stackOverflow.code = 10 ∧
  FatalCondition.outputFailure.code = 11

/-! ### Reset and the invariant -/

/-- R31: every piece of state right after reset, with the empty image (log 4 names the streams' condition, which is not stated
here). -/
def Obligations.ResetState : Prop :=
  (∀ r, readReg State.reset r = 0) ∧ State.reset.pc = 0 ∧ State.reset.stack = [] ∧
  (∀ a, readByte State.reset.mem a = 0) ∧ State.reset.runState = .running ∧ State.reset.cause = 0 ∧
  State.reset.faultInfo = 0 ∧ State.reset.inputPos = 0 ∧ State.reset.output = [] ∧ State.reset.rst = false ∧
  State.reset.config.memWords = 32768 ∧ State.reset.config.stackDepth = none

/-- R200, R202: while `rst` is asserted a step puts the core's own state at its reset values, from any state; memory and the
environment's streams are not touched (log 11). -/
def Obligations.AssertedResetHoldsCore : Prop :=
  ∀ s : State, s.rst = true →
    ∃ t, step s = .next t ∧ (∀ r, readReg t r = 0) ∧ t.pc = 0 ∧ t.stack = [] ∧ t.runState = .running ∧ t.cause = 0 ∧
      t.faultInfo = 0 ∧ t.inputPos = 0 ∧ t.output = [] ∧ SameMemory s t ∧ t.input = s.input ∧
      t.inputEnded = s.inputEnded ∧ t.sink = s.sink ∧ SameBuild s t

/-- R31, R55, R203, R201: after the host's start of a run with a file it admits, from any state, memory holds the file's bytes
and zeros, and the core stands running at address 0 with the streams connected. A file that is missing, has an odd byte count or
more than `MEM_WORDS` words is reported (R184, R212) and leaves the core held in reset with memory as it was. No other move releases
`rst`. How a program is loaded rests on log 6; the host's one-move start, the one move that releases `rst`, and the step under `rst`
are the model's choice, log 11. -/
def Obligations.BootLoadsImageAndZeros : Prop :=
  (∀ (bs : List Byte) (input : List Word) (ended : Bool) (sink : Sink) (s t : State),
    bs.length % 2 = 0 → bs.length ≤ 2 * s.config.memWords → boot (some bs) input ended sink s = t →
      startReport s.config (some bs) = none ∧
      t.active ∧ t.pc = 0 ∧ (∀ r, readReg t r = 0) ∧ t.stack = [] ∧ t.cause = 0 ∧ t.faultInfo = 0 ∧
      t.output = [] ∧ t.inputPos = 0 ∧ t.input = input ∧ t.inputEnded = ended ∧ t.sink = sink ∧ t.config = s.config ∧
      (∀ k b, bs[k]? = some b → readByte t.mem k = b) ∧ (∀ k, bs.length ≤ k → readByte t.mem k = 0) ∧
      (∀ j w, (wordsOfBytes bs)[j]? = some w → readWord t.mem j = w) ∧
      (∀ j, bs.length ≤ 2 * j → readWord t.mem j = 0)) ∧
  (∀ (file : Option (List Byte)) (input : List Word) (ended : Bool) (sink : Sink) (s t : State),
    (∀ bs, file = some bs → bs.length % 2 = 1 ∨ 2 * s.config.memWords < bs.length) →
    boot file input ended sink s = t →
      (∃ why, startReport s.config file = some (.notStarted why) ∧ (why = .programNotFound ↔ file = none)) ∧
      t.rst = true ∧ t.mem = s.mem ∧ step t = .next t) ∧
  (∀ (m : Move) (s : State), s.rst = true → (applyMove m s).rst = false →
    ∃ bs input ended sink, m = .startRun (some bs) input ended sink ∧ bs.length % 2 = 0 ∧
      bs.length ≤ 2 * s.config.memWords)

/-- The reset state meets the invariant. -/
def Obligations.ResetMeetsInvariant : Prop := State.reset.Inv

/-- Every step keeps the invariant. -/
def Obligations.StepKeepsInvariant : Prop :=
  ∀ s t : State, s.Inv → step s = .next t → t.Inv

/-- Every move of the core and of its environment (log 3, log 11) keeps the invariant. -/
def Obligations.MovesKeepInvariant : Prop :=
  ∀ s t : State, s.Inv → Reaches s t → t.Inv

/-! ### `set`, `push`, `pop` -/

/-- R100. -/
def Obligations.SetCopiesValue : Prop :=
  ∀ (d : Reg) (v : Operand) (s : State),
    encode (.set d v) = [1, regWord d, v.word] ∧ ChecksWords (.set d v) ∧
    ∃ t, exec (.set d v) s = .next t ∧ readReg t d = value s v ∧ t.pc = s.pc + 3 ∧ OnlyRegs [d] s t

/-- R101, with R15. -/
def Obligations.PushAppendsValue : Prop :=
  ∀ (v : Operand) (s : State),
    encode (.push v) = [2, v.word] ∧ ChecksWords (.push v) ∧
    (s.config.stackDepth ≠ some s.stack.length →
      ∃ t, exec (.push v) s = .next t ∧ t.pc = s.pc + 2 ∧ OnlyRegsAndStack [] (s.stack ++ [value s v]) s t) ∧
    (s.config.stackDepth = some s.stack.length →
      ∃ t, exec (.push v) s = .next t ∧ CrashedBy .stackOverflow (value s v) (s.pc + 2) s t)

/-- R102, with R16. -/
def Obligations.PopTakesTop : Prop :=
  ∀ (d : Reg) (s : State),
    encode (.pop d) = [3, regWord d] ∧ ChecksWords (.pop d) ∧
    (∀ rest v, s.stack = rest ++ [v] →
      ∃ t, exec (.pop d) s = .next t ∧ readReg t d = v ∧ t.pc = s.pc + 2 ∧ OnlyRegsAndStack [d] rest s t) ∧
    (s.stack = [] → ∃ t, exec (.pop d) s = .next t ∧ CrashedBy .stackUnderflow 0 (s.pc + 2) s t)

/-- The property quoted in R102: a push and then a pop give the pushed value back and leave the stack as it was. -/
def Obligations.PushThenPopReturnsValue : Prop :=
  ∀ (v : Operand) (d : Reg) (s : State), s.config.stackDepth ≠ some s.stack.length →
    ∃ t u, exec (.push v) s = .next t ∧ exec (.pop d) t = .next u ∧ readReg u d = value s v ∧ u.stack = s.stack

/-! ### The ALU -/

/-- R111. -/
def Obligations.EqWritesComparison : Prop :=
  ∀ (d : Reg) (a b : Operand) (s : State),
    encode (.eq d a b) = [4, regWord d, a.word, b.word] ∧ ChecksWords (.eq d a b) ∧
    ∃ t, exec (.eq d a b) s = .next t ∧ (value s a = value s b → readReg t d = 1) ∧
      (value s a ≠ value s b → readReg t d = 0) ∧ t.pc = s.pc + 4 ∧ OnlyRegs [d] s t

/-- R112. -/
def Obligations.GtWritesComparison : Prop :=
  ∀ (d : Reg) (a b : Operand) (s : State),
    encode (.gt d a b) = [5, regWord d, a.word, b.word] ∧ ChecksWords (.gt d a b) ∧
    ∃ t, exec (.gt d a b) s = .next t ∧ ((value s b).toNat < (value s a).toNat → readReg t d = 1) ∧
      ((value s a).toNat ≤ (value s b).toNat → readReg t d = 0) ∧ t.pc = s.pc + 4 ∧ OnlyRegs [d] s t

/-- R113. -/
def Obligations.AddWrapsAtFifteenBits : Prop :=
  ∀ (d : Reg) (a b : Operand) (s : State),
    encode (.add d a b) = [9, regWord d, a.word, b.word] ∧ ChecksWords (.add d a b) ∧
    ∃ t, exec (.add d a b) s = .next t ∧
      (readReg t d).toNat = ((value s a).toNat + (value s b).toNat) % 32768 ∧ t.pc = s.pc + 4 ∧ OnlyRegs [d] s t

/-- R114. -/
def Obligations.MultWrapsAtFifteenBits : Prop :=
  ∀ (d : Reg) (a b : Operand) (s : State),
    encode (.mult d a b) = [10, regWord d, a.word, b.word] ∧ ChecksWords (.mult d a b) ∧
    ∃ t, exec (.mult d a b) s = .next t ∧
      (readReg t d).toNat = ((value s a).toNat * (value s b).toNat) % 32768 ∧ t.pc = s.pc + 4 ∧ OnlyRegs [d] s t

/-- R115. -/
def Obligations.ModWritesRemainder : Prop :=
  ∀ (d : Reg) (a b : Operand) (s : State),
    encode (.mod d a b) = [11, regWord d, a.word, b.word] ∧ ChecksWords (.mod d a b) ∧
    (value s b ≠ 0 →
      ∃ t, exec (.mod d a b) s = .next t ∧ (readReg t d).toNat = (value s a).toNat % (value s b).toNat ∧
        (readReg t d).toNat < (value s b).toNat ∧ t.pc = s.pc + 4 ∧ OnlyRegs [d] s t) ∧
    (value s b = 0 → ∃ t, exec (.mod d a b) s = .next t ∧ CrashedBy .divideByZero (value s a) (s.pc + 4) s t)

/-- R116. -/
def Obligations.AndIsBitwise : Prop :=
  ∀ (d : Reg) (a b : Operand) (s : State),
    encode (.and d a b) = [12, regWord d, a.word, b.word] ∧ ChecksWords (.and d a b) ∧
    ∃ t, exec (.and d a b) s = .next t ∧
      (∀ k, (readReg t d).getLsbD k = ((value s a).getLsbD k && (value s b).getLsbD k)) ∧
      t.pc = s.pc + 4 ∧ OnlyRegs [d] s t

/-- R117. -/
def Obligations.OrIsBitwise : Prop :=
  ∀ (d : Reg) (a b : Operand) (s : State),
    encode (.or d a b) = [13, regWord d, a.word, b.word] ∧ ChecksWords (.or d a b) ∧
    ∃ t, exec (.or d a b) s = .next t ∧
      (∀ k, (readReg t d).getLsbD k = ((value s a).getLsbD k || (value s b).getLsbD k)) ∧
      t.pc = s.pc + 4 ∧ OnlyRegs [d] s t

/-- R118: `32767 - a[14:0]`. -/
def Obligations.NotComplementsFifteenBits : Prop :=
  ∀ (d : Reg) (a : Operand) (s : State),
    encode (.not d a) = [14, regWord d, a.word] ∧ ChecksWords (.not d a) ∧
    ∃ t, exec (.not d a) s = .next t ∧ (readReg t d).toNat = 32767 - (value s a).toNat % 32768 ∧
      t.pc = s.pc + 3 ∧ OnlyRegs [d] s t

/-- R119: wrapping the sum or the product to any width of 15 bits or more first gives the same results; so they are the low 15
bits of the 16-bit sum and of the 16-bit or 32-bit product. -/
def Obligations.SumAndProductNarrow : Prop :=
  ∀ a b : Word,
    (∀ n, 15 ≤ n →
      (aluAdd a b).toNat = (a.toNat + b.toNat) % 2 ^ n % 32768 ∧
      (aluMult a b).toNat = (a.toNat * b.toNat) % 2 ^ n % 32768) ∧
    aluAdd a b = (a + b) &&& 0x7FFF ∧ aluMult a b = (a * b) &&& 0x7FFF ∧
    aluMult a b = ((a.setWidth 32 * b.setWidth 32).extractLsb' 0 15).setWidth 16

/-! ### Control -/

/-- R130. -/
def Obligations.HaltStopsTheRun : Prop :=
  ∀ s : State,
    encode .halt = [0] ∧ ChecksWords .halt ∧
    ∃ t, exec .halt s = .next t ∧ t.runState = .halted ∧ t.cause = s.cause ∧ t.faultInfo = s.faultInfo ∧
      t.pc = s.pc + 1 ∧ SameBesidesStatusAndPc s t

/-- R131. -/
def Obligations.JmpWritesPc : Prop :=
  ∀ (a : Operand) (s : State),
    encode (.jmp a) = [6, a.word] ∧ ChecksWords (.jmp a) ∧
    ∃ t, exec (.jmp a) s = .next t ∧ t.pc = value s a ∧ OnlyRegs [] s t

/-- R132. -/
def Obligations.JtJumpsOnNonzero : Prop :=
  ∀ (c a : Operand) (s : State),
    encode (.jt c a) = [7, c.word, a.word] ∧ ChecksWords (.jt c a) ∧
    ∃ t, exec (.jt c a) s = .next t ∧ (value s c ≠ 0 → t.pc = value s a) ∧ (value s c = 0 → t.pc = s.pc + 3) ∧
      OnlyRegs [] s t

/-- R133. -/
def Obligations.JfJumpsOnZero : Prop :=
  ∀ (c a : Operand) (s : State),
    encode (.jf c a) = [8, c.word, a.word] ∧ ChecksWords (.jf c a) ∧
    ∃ t, exec (.jf c a) s = .next t ∧ (value s c = 0 → t.pc = value s a) ∧ (value s c ≠ 0 → t.pc = s.pc + 3) ∧
      OnlyRegs [] s t

/-- R134. -/
def Obligations.CallPushesReturnAddress : Prop :=
  ∀ (a : Operand) (s : State),
    encode (.call a) = [17, a.word] ∧ ChecksWords (.call a) ∧
    (s.config.stackDepth ≠ some s.stack.length →
      ∃ t, exec (.call a) s = .next t ∧ t.pc = value s a ∧ OnlyRegsAndStack [] (s.stack ++ [s.pc + 2]) s t) ∧
    (s.config.stackDepth = some s.stack.length →
      ∃ t, exec (.call a) s = .next t ∧ CrashedBy .stackOverflow (s.pc + 2) (s.pc + 2) s t)

/-- R135. -/
def Obligations.RetPopsPc : Prop :=
  ∀ s : State,
    encode .ret = [18] ∧ ChecksWords .ret ∧
    (∀ rest v, s.stack = rest ++ [v] →
      ∃ t, exec .ret s = .next t ∧ t.pc = v ∧ OnlyRegsAndStack [] rest s t) ∧
    (s.stack = [] → ∃ t, exec .ret s = .next t ∧ CrashedBy .stackUnderflow 0 (s.pc + 1) s t)

/-- The property quoted in R138: from any later state with the stack `call` left, `ret` goes to the instruction after the call
and leaves the caller's stack. -/
def Obligations.RetReturnsAfterCall : Prop :=
  ∀ (a : Operand) (s : State), s.config.stackDepth ≠ some s.stack.length →
    ∃ t, exec (.call a) s = .next t ∧
      ∀ u : State, u.stack = t.stack → ∃ v, exec .ret u = .next v ∧ v.pc = s.pc + 2 ∧ v.stack = s.stack

/-- R136. -/
def Obligations.NoopOnlyAdvances : Prop :=
  ∀ s : State,
    encode .noop = [21] ∧ ChecksWords .noop ∧
    ∃ t, exec .noop s = .next t ∧ t.pc = s.pc + 1 ∧ OnlyRegs [] s t

/-! ### Memory -/

/-- R43: a word is its two bytes, low byte at the lower address. -/
def Obligations.WordsAreLittleEndian : Prop :=
  ∀ (m : Memory) (a : Nat),
    (readWord m a).toNat = 256 * (readByte m (2 * a + 1)).toNat + (readByte m (2 * a)).toNat

/-- R150, with R46. -/
def Obligations.RmemReadsWord : Prop :=
  ∀ (d : Reg) (m : Operand) (s : State),
    encode (.rmem d m) = [15, regWord d, m.word] ∧ ChecksWords (.rmem d m) ∧
    ((value s m).toNat < s.config.memWords →
      ∃ t, exec (.rmem d m) s = .next t ∧ readReg t d = readWord s.mem (value s m).toNat ∧ t.pc = s.pc + 3 ∧
        OnlyRegs [d] s t) ∧
    (s.config.memWords ≤ (value s m).toNat →
      ∃ t, exec (.rmem d m) s = .next t ∧ CrashedBy .addressOutOfRange (value s m) (s.pc + 3) s t)

/-- R151, with R47 and R43: the two bytes of the word at the address, and no other byte of memory. -/
def Obligations.WmemWritesWord : Prop :=
  ∀ (m v : Operand) (s : State),
    encode (.wmem m v) = [16, m.word, v.word] ∧ ChecksWords (.wmem m v) ∧
    ((value s m).toNat < s.config.memWords →
      ∃ t, exec (.wmem m v) s = .next t ∧ readWord t.mem (value s m).toNat = value s v ∧
        (readByte t.mem (2 * (value s m).toNat)).toNat = (value s v).toNat % 256 ∧
        (readByte t.mem (2 * (value s m).toNat + 1)).toNat = (value s v).toNat / 256 ∧
        (∀ a, a ≠ 2 * (value s m).toNat → a ≠ 2 * (value s m).toNat + 1 → readByte t.mem a = readByte s.mem a) ∧
        t.pc = s.pc + 3 ∧ t.regs = s.regs ∧ t.stack = s.stack ∧ SameInput s t ∧ SameOutput s t ∧ SameStatus s t ∧
        SameBuild s t) ∧
    (s.config.memWords ≤ (value s m).toNat →
      ∃ t, exec (.wmem m v) s = .next t ∧ CrashedBy .addressOutOfRange (value s m) (s.pc + 3) s t)

/-- The property quoted in R151: a write and then a read of the same address give the value, and `pc` only advances. -/
def Obligations.WmemThenRmemReturnsValue : Prop :=
  ∀ (m v : Operand) (d : Reg) (s : State), (value s m).toNat < s.config.memWords →
    ∃ t u, exec (.wmem m v) s = .next t ∧ exec (.rmem d m) t = .next u ∧ readReg u d = value s v ∧ u.pc = s.pc + 6

/-- R53: a word written where the next instruction is fetched is the next word fetched. -/
def Obligations.WrittenWordIsFetchedNext : Prop :=
  ∀ (m v : Operand) (s : State), value s m = s.pc + 3 → (value s m).toNat < s.config.memWords →
    ∃ t, exec (.wmem m v) s = .next t ∧ (fetchWindow t)[0]? = some (value s v)

/-! ### Input and output -/

/-- R161, with R160. That a hold (a busy sink) is a step that answers the state it began in is the model's choice, log 3. -/
def Obligations.OutEmitsWord : Prop :=
  ∀ (c : Operand) (s : State),
    encode (.out c) = [19, c.word] ∧ ChecksWords (.out c) ∧
    (s.sink = .ready →
      ∃ t, exec (.out c) s = .next t ∧ t.output = s.output ++ [value s c] ∧ t.sink = s.sink ∧ t.pc = s.pc + 2 ∧
        t.regs = s.regs ∧ SameMemory s t ∧ t.stack = s.stack ∧ SameInput s t ∧ SameStatus s t ∧ SameBuild s t) ∧
    (s.sink = .busy → exec (.out c) s = .next s) ∧
    (s.sink = .failed → ∃ t, exec (.out c) s = .next t ∧ CrashedBy .outputFailure (value s c) (s.pc + 2) s t)

/-- R163, with R162. That a hold (no word and no end) is a step that answers the state it began in is the model's choice, log 3;
so are the end after the listed words, log 12, and the count that is the stream's position, log 14. -/
def Obligations.InReceivesWord : Prop :=
  ∀ (d : Reg) (s : State),
    encode (.inp d) = [20, regWord d] ∧ ChecksWords (.inp d) ∧
    (∀ c rest, s.input = c :: rest →
      ∃ t, exec (.inp d) s = .next t ∧ readReg t d = c ∧ t.input = rest ∧ t.inputPos = s.inputPos + 1 ∧
        t.inputEnded = s.inputEnded ∧ t.pc = s.pc + 2 ∧ SameRegsBut [d] s t ∧ SameMemory s t ∧ t.stack = s.stack ∧
        SameOutput s t ∧ SameStatus s t ∧ SameBuild s t) ∧
    (s.input = [] → s.inputEnded = false → exec (.inp d) s = .next s) ∧
    (s.input = [] → s.inputEnded = true →
      ∃ t, exec (.inp d) s = .next t ∧ CrashedBy .inputFailure 0 (s.pc + 2) s t)

/-- R162: what lifts the hold of `in` is the environment supplying a word: the held instruction receives it. That a held step
answers its own state and the next step tries the instruction again is the model's choice, log 3. -/
def Obligations.SuppliedWordLiftsHold : Prop :=
  ∀ (d : Reg) (w : Word) (s : State), s.active → InstrAt (.inp d) s → s.input = [] → s.inputEnded = false →
    step s = .next s ∧
    ∃ t, step (applyMove (.supply w) s) = .next t ∧ readReg t d = w ∧ t.pc = s.pc + 2 ∧ t.input = [] ∧
      t.inputPos = s.inputPos + 1

/-! ### Readers -/

/-- R83, R85: `ReadValue` on the machine. -/
def Obligations.ReadValueResolvesOnce : Prop :=
  ∀ (s : State) (k : Word → State → State),
    (s.config.memWords ≤ s.pc.toNat → readValue s k = raise .addressOutOfRange s.pc s) ∧
    (∀ w, s.pc.toNat < s.config.memWords → readWord s.mem s.pc.toNat = w →
      (32775 < w.toNat → readValue s k = raise .valueOutOfRange w (setPc (s.pc + 1) s)) ∧
      (w.toNat ≤ 32767 → readValue s k = k w (setPc (s.pc + 1) s)) ∧
      (∀ r : Reg, w.toNat = 32768 + r.val → readValue s k = k (readReg s r) (setPc (s.pc + 1) s)))

/-- R84: `ReadOpcodeLiteral` on the machine. -/
def Obligations.ReadOpcodeLiteralAcceptsStrictLiterals : Prop :=
  ∀ (s : State) (k : Word → State → State),
    (s.config.memWords ≤ s.pc.toNat → readOpcodeLiteral s k = raise .addressOutOfRange s.pc s) ∧
    (∀ w, s.pc.toNat < s.config.memWords → readWord s.mem s.pc.toNat = w →
      (22 ≤ w.toNat ∧ w.toNat ≤ 32767 → readOpcodeLiteral s k = k w (setPc (s.pc + 1) s)) ∧
      (w.toNat < 22 ∨ 32767 < w.toNat →
        readOpcodeLiteral s k = raise .literalExpected w (setPc (s.pc + 1) s)))

/-! ### Whole-machine rules -/

/-- R12: a register changes only in an instruction whose first operand names it as its write target, so at most one does. -/
def Obligations.OnlyTheTargetRegisterChanges : Prop :=
  ∀ (i : Instr) (s t : State) (r : Reg), exec i s = .next t → readReg t r ≠ readReg s r → writeTarget i = some r

/-- R14, R57: an instruction other than `push`, `pop`, `call`, `ret` neither changes the stack nor depends on it. -/
def Obligations.StackIsolated : Prop :=
  ∀ (i : Instr) (s t : State) (st : List Word), usesStack i = false → exec i s = .next t →
    t.stack = s.stack ∧ exec i { s with stack := st } = .next { t with stack := st }

/-- R203, R40: out of reset, memory changes only in a step of the core that executes `wmem`. -/
def Obligations.MemoryChangedByWmemAlone : Prop :=
  ∀ (m : Move) (s : State) (a : Nat), s.rst = false → readByte (applyMove m s).mem a ≠ readByte s.mem a →
    m = .core ∧ ∃ x v rest n, decodeAt s = .instr (.wmem x v) rest n

/-- R20, R164: out of reset, a step leaves the output stream or appends the value of one executed `out`, at its end. -/
def Obligations.OutputGrowsByOutAlone : Prop :=
  ∀ s t : State, s.rst = false → step s = .next t →
    t.output = s.output ∨
      ∃ c rest n, decodeAt s = .instr (.out c) rest n ∧ t.output = s.output ++ [value s c]

/-- R19, R164: out of reset, a step leaves the input stream or takes its first word, in one executed `in`. -/
def Obligations.InputTakenByInAlone : Prop :=
  ∀ s t : State, s.rst = false → step s = .next t →
    (t.input = s.input ∧ t.inputPos = s.inputPos) ∨
      ∃ d c rest' rest n, decodeAt s = .instr (.inp d) rest n ∧ s.input = c :: rest' ∧ t.input = rest' ∧
        t.inputPos = s.inputPos + 1 ∧ readReg t d = c

/-- R13, R89: an instruction that does not transfer control and does not hold leaves `pc` at the address after it. -/
def Obligations.PcAdvancesByLength : Prop :=
  ∀ (i : Instr) (s t : State), exec i s = .next t → transfersControl i = false → ¬ holds i s →
    t.pc = wordAddr s i.length

/-- R32: fifteen-bit closure. A reset establishes the property, every move keeps it as long as what an executed `rmem` reads,
an executed `in` receives and an executed `call` pushes keeps to 15 bits, and under it every operand value does too. -/
def Obligations.FifteenBitClosure : Prop :=
  (∀ s t : State, applyMove .assertReset s = t → FifteenBit t) ∧
  (∀ (m : Move) (s t : State), FifteenBit s → FifteenBitPremises m s → applyMove m s = t → FifteenBit t) ∧
  ∀ (s : State) (o : Operand), FifteenBit s → o.wf = true → (value s o).toNat ≤ 32767
end

