-- ==== Sys2Proof/Laws/Decode.lean ====
section
/-! SUPPORT. Small laws of the classifier, the readers and the encoder. -/

namespace Sys2Proof

theorem toNat_regWord (r : Reg) : (regWord r).toNat = 32768 + r.val := by
  have := r.isLt
  simp only [regWord, regBase, BitVec.toNat_ofNat]
  omega

@[simp] theorem isReg_regWord (r : Reg) : isReg (regWord r) = true := by
  have := r.isLt
  simp [isReg, toNat_regWord]; omega

@[simp] theorem isInvalid_regWord (r : Reg) : isInvalid (regWord r) = false := by
  have := r.isLt
  simp [isInvalid, toNat_regWord]; omega

@[simp] theorem regIndex_regWord (r : Reg) : regIndex (regWord r) = r := by
  have := r.isLt
  apply Fin.ext
  simp only [regIndex, toNat_regWord, Fin.val_ofNat]
  omega

/-- A register word is the word of its index. -/
theorem regWord_regIndex {w : Word} (h : isReg w = true) : regWord (regIndex w) = w := by
  simp only [isReg, Bool.and_eq_true, decide_eq_true_eq] at h
  apply BitVec.eq_of_toNat_eq
  rw [toNat_regWord]
  simp only [regIndex, Fin.val_ofNat]
  omega

/-- A reader of kind `reg` takes back a register's word. -/
@[simp] theorem takeReg_regWord (r : Reg) (ws : List Word) (n : Nat) (k : Reg → List Word → Nat → Decoded) :
    takeReg (regWord r :: ws) n k = k r ws (n + 1) := by
  simp [takeReg, takeWord]

/-- A reader of kind `val` takes back a well-formed operand's word. -/
theorem takeVal_word {o : Operand} (h : o.wf = true) (ws : List Word) (n : Nat)
    (k : Operand → List Word → Nat → Decoded) : takeVal (o.word :: ws) n k = k o ws (n + 1) := by
  cases o with
  | reg r => simp [takeVal, takeWord, Operand.word]
  | lit v =>
    simp only [Operand.wf, decide_eq_true_eq] at h
    have h1 : isInvalid v = false := by simp [isInvalid]; omega
    have h2 : isReg v = false := by simp [isReg]; omega
    simp [takeVal, takeWord, Operand.word, h1, h2]

/-- What a `reg` reader answers when it does not reject. -/
theorem takeReg_cases (ws : List Word) (n : Nat) (k : Reg → List Word → Nat → Decoded) :
    (∃ e m, takeReg ws n k = .rejected e m) ∨
    (∃ r rest, ws = regWord r :: rest ∧ takeReg ws n k = k r rest (n + 1)) := by
  cases ws with
  | nil => exact .inl ⟨_, _, rfl⟩
  | cons w rest =>
    by_cases h : isReg w = true
    · exact .inr ⟨regIndex w, rest, by rw [regWord_regIndex h], by simp [takeReg, takeWord, h]⟩
    · exact .inl ⟨.invalidRegister w, n + 1, by simp [takeReg, takeWord, h]⟩

/-- What a `val` reader answers when it does not reject. -/
theorem takeVal_cases (ws : List Word) (n : Nat) (k : Operand → List Word → Nat → Decoded) :
    (∃ e m, takeVal ws n k = .rejected e m) ∨
    (∃ o rest, o.wf = true ∧ ws = o.word :: rest ∧ takeVal ws n k = k o rest (n + 1)) := by
  cases ws with
  | nil => exact .inl ⟨_, _, rfl⟩
  | cons w rest =>
    by_cases hi : isInvalid w = true
    · exact .inl ⟨.valueOutOfRange w, n + 1, by simp [takeVal, takeWord, hi]⟩
    · by_cases h : isReg w = true
      · refine .inr ⟨.reg (regIndex w), rest, rfl, ?_, by simp [takeVal, takeWord, hi, h]⟩
        simp [Operand.word, regWord_regIndex h]
      · refine .inr ⟨.lit w, rest, ?_, rfl, by simp [takeVal, takeWord, hi, h]⟩
        simp only [isInvalid, decide_eq_true_eq] at hi
        simp only [isReg, Bool.and_eq_true, decide_eq_true_eq] at h
        simp only [Operand.wf, decide_eq_true_eq]
        omega

/-- Every instruction's opcode is one of the 22 (R64). -/
theorem opcode_lt (i : Instr) : i.opcode.toNat < numOpcodes := by cases i <;> simp [Instr.opcode, numOpcodes]

@[simp] theorem length_bytesOfWords (ws : List Word) : (bytesOfWords ws).length = 2 * ws.length := by
  induction ws with
  | nil => rfl
  | cons w ws ih => simp [bytesOfWords, ih]; omega

end Sys2Proof
end

