-- ==== Sys2Proof/Laws/State.lean ====
section
/-! SUPPORT. One lemma per field per named update of State, and the register file's two laws. -/

namespace Sys2Proof.Machine

@[simp] theorem setPc_config (t : Word) (s : State) : (setPc t s).config = s.config := rfl
@[simp] theorem setPc_regs (t : Word) (s : State) : (setPc t s).regs = s.regs := rfl
@[simp] theorem setPc_pc (t : Word) (s : State) : (setPc t s).pc = t := rfl
@[simp] theorem setPc_stack (t : Word) (s : State) : (setPc t s).stack = s.stack := rfl
@[simp] theorem setPc_mem (t : Word) (s : State) : (setPc t s).mem = s.mem := rfl
@[simp] theorem setPc_runState (t : Word) (s : State) : (setPc t s).runState = s.runState := rfl
@[simp] theorem setPc_cause (t : Word) (s : State) : (setPc t s).cause = s.cause := rfl
@[simp] theorem setPc_faultInfo (t : Word) (s : State) : (setPc t s).faultInfo = s.faultInfo := rfl
@[simp] theorem setPc_input (t : Word) (s : State) : (setPc t s).input = s.input := rfl
@[simp] theorem setPc_inputEnded (t : Word) (s : State) : (setPc t s).inputEnded = s.inputEnded := rfl
@[simp] theorem setPc_inputPos (t : Word) (s : State) : (setPc t s).inputPos = s.inputPos := rfl
@[simp] theorem setPc_output (t : Word) (s : State) : (setPc t s).output = s.output := rfl
@[simp] theorem setPc_sink (t : Word) (s : State) : (setPc t s).sink = s.sink := rfl
@[simp] theorem setPc_rst (t : Word) (s : State) : (setPc t s).rst = s.rst := rfl

@[simp] theorem advance_config (n : Nat) (s : State) : (advance n s).config = s.config := rfl
@[simp] theorem advance_regs (n : Nat) (s : State) : (advance n s).regs = s.regs := rfl
@[simp] theorem advance_pc (n : Nat) (s : State) : (advance n s).pc = s.pc + BitVec.ofNat 16 n := rfl
@[simp] theorem advance_stack (n : Nat) (s : State) : (advance n s).stack = s.stack := rfl
@[simp] theorem advance_mem (n : Nat) (s : State) : (advance n s).mem = s.mem := rfl
@[simp] theorem advance_runState (n : Nat) (s : State) : (advance n s).runState = s.runState := rfl
@[simp] theorem advance_cause (n : Nat) (s : State) : (advance n s).cause = s.cause := rfl
@[simp] theorem advance_faultInfo (n : Nat) (s : State) : (advance n s).faultInfo = s.faultInfo := rfl
@[simp] theorem advance_input (n : Nat) (s : State) : (advance n s).input = s.input := rfl
@[simp] theorem advance_inputEnded (n : Nat) (s : State) : (advance n s).inputEnded = s.inputEnded := rfl
@[simp] theorem advance_inputPos (n : Nat) (s : State) : (advance n s).inputPos = s.inputPos := rfl
@[simp] theorem advance_output (n : Nat) (s : State) : (advance n s).output = s.output := rfl
@[simp] theorem advance_sink (n : Nat) (s : State) : (advance n s).sink = s.sink := rfl
@[simp] theorem advance_rst (n : Nat) (s : State) : (advance n s).rst = s.rst := rfl

@[simp] theorem writeReg_config (r : Reg) (v : Word) (s : State) : (writeReg r v s).config = s.config := rfl
@[simp] theorem writeReg_regs (r : Reg) (v : Word) (s : State) : (writeReg r v s).regs = s.regs.set r.val v r.isLt := rfl
@[simp] theorem writeReg_pc (r : Reg) (v : Word) (s : State) : (writeReg r v s).pc = s.pc := rfl
@[simp] theorem writeReg_stack (r : Reg) (v : Word) (s : State) : (writeReg r v s).stack = s.stack := rfl
@[simp] theorem writeReg_mem (r : Reg) (v : Word) (s : State) : (writeReg r v s).mem = s.mem := rfl
@[simp] theorem writeReg_runState (r : Reg) (v : Word) (s : State) : (writeReg r v s).runState = s.runState := rfl
@[simp] theorem writeReg_cause (r : Reg) (v : Word) (s : State) : (writeReg r v s).cause = s.cause := rfl
@[simp] theorem writeReg_faultInfo (r : Reg) (v : Word) (s : State) : (writeReg r v s).faultInfo = s.faultInfo := rfl
@[simp] theorem writeReg_input (r : Reg) (v : Word) (s : State) : (writeReg r v s).input = s.input := rfl
@[simp] theorem writeReg_inputEnded (r : Reg) (v : Word) (s : State) : (writeReg r v s).inputEnded = s.inputEnded := rfl
@[simp] theorem writeReg_inputPos (r : Reg) (v : Word) (s : State) : (writeReg r v s).inputPos = s.inputPos := rfl
@[simp] theorem writeReg_output (r : Reg) (v : Word) (s : State) : (writeReg r v s).output = s.output := rfl
@[simp] theorem writeReg_sink (r : Reg) (v : Word) (s : State) : (writeReg r v s).sink = s.sink := rfl
@[simp] theorem writeReg_rst (r : Reg) (v : Word) (s : State) : (writeReg r v s).rst = s.rst := rfl

@[simp] theorem raise_config (e : FatalCondition) (info : Word) (s : State) : (raise e info s).config = s.config := rfl
@[simp] theorem raise_regs (e : FatalCondition) (info : Word) (s : State) : (raise e info s).regs = s.regs := rfl
@[simp] theorem raise_pc (e : FatalCondition) (info : Word) (s : State) : (raise e info s).pc = s.pc := rfl
@[simp] theorem raise_stack (e : FatalCondition) (info : Word) (s : State) : (raise e info s).stack = s.stack := rfl
@[simp] theorem raise_mem (e : FatalCondition) (info : Word) (s : State) : (raise e info s).mem = s.mem := rfl
@[simp] theorem raise_runState (e : FatalCondition) (info : Word) (s : State) : (raise e info s).runState = .crashed := rfl
@[simp] theorem raise_cause (e : FatalCondition) (info : Word) (s : State) : (raise e info s).cause = e.code := rfl
@[simp] theorem raise_faultInfo (e : FatalCondition) (info : Word) (s : State) : (raise e info s).faultInfo = info := rfl
@[simp] theorem raise_input (e : FatalCondition) (info : Word) (s : State) : (raise e info s).input = s.input := rfl
@[simp] theorem raise_inputEnded (e : FatalCondition) (info : Word) (s : State) : (raise e info s).inputEnded = s.inputEnded := rfl
@[simp] theorem raise_inputPos (e : FatalCondition) (info : Word) (s : State) : (raise e info s).inputPos = s.inputPos := rfl
@[simp] theorem raise_output (e : FatalCondition) (info : Word) (s : State) : (raise e info s).output = s.output := rfl
@[simp] theorem raise_sink (e : FatalCondition) (info : Word) (s : State) : (raise e info s).sink = s.sink := rfl
@[simp] theorem raise_rst (e : FatalCondition) (info : Word) (s : State) : (raise e info s).rst = s.rst := rfl

@[simp] theorem applyReset_config (s : State) : (applyReset s).config = s.config := rfl
@[simp] theorem applyReset_regs (s : State) : (applyReset s).regs = Vector.replicate 8 0 := rfl
@[simp] theorem applyReset_pc (s : State) : (applyReset s).pc = 0 := rfl
@[simp] theorem applyReset_stack (s : State) : (applyReset s).stack = [] := rfl
@[simp] theorem applyReset_mem (s : State) : (applyReset s).mem = s.mem := rfl
@[simp] theorem applyReset_runState (s : State) : (applyReset s).runState = .running := rfl
@[simp] theorem applyReset_cause (s : State) : (applyReset s).cause = 0 := rfl
@[simp] theorem applyReset_faultInfo (s : State) : (applyReset s).faultInfo = 0 := rfl
@[simp] theorem applyReset_input (s : State) : (applyReset s).input = s.input := rfl
@[simp] theorem applyReset_inputEnded (s : State) : (applyReset s).inputEnded = s.inputEnded := rfl
@[simp] theorem applyReset_inputPos (s : State) : (applyReset s).inputPos = 0 := rfl
@[simp] theorem applyReset_output (s : State) : (applyReset s).output = [] := rfl
@[simp] theorem applyReset_sink (s : State) : (applyReset s).sink = s.sink := rfl
@[simp] theorem applyReset_rst (s : State) : (applyReset s).rst = s.rst := rfl

/-! ### The register file -/

@[simp] theorem readReg_writeReg_same (r : Reg) (v : Word) (s : State) : readReg (writeReg r v s) r = v := by
  simp [readReg]

theorem readReg_writeReg_ne {r q : Reg} (h : q ≠ r) (v : Word) (s : State) :
    readReg (writeReg r v s) q = readReg s q := by
  have : r.val ≠ q.val := fun e => h (Fin.ext e.symm)
  simp [readReg, this]

/-- Registers are read from `regs` alone. -/
theorem readReg_congr {s t : State} (h : t.regs = s.regs) (r : Reg) : readReg t r = readReg s r := by
  simp [readReg, h]

@[simp] theorem readReg_setPc (t : Word) (s : State) (r : Reg) : readReg (setPc t s) r = readReg s r := rfl
@[simp] theorem readReg_advance (n : Nat) (s : State) (r : Reg) : readReg (advance n s) r = readReg s r := rfl
@[simp] theorem readReg_raise (e : FatalCondition) (info : Word) (s : State) (r : Reg) :
    readReg (raise e info s) r = readReg s r := rfl

/-- Two register files that read alike everywhere are one. -/
theorem regs_ext {s t : State} (h : ∀ r, readReg t r = readReg s r) : t.regs = s.regs := by
  apply Vector.ext
  intro i hi
  exact h ⟨i, hi⟩

theorem readReg_applyReset (s : State) (r : Reg) : readReg (applyReset s) r = 0 := by
  simp [readReg]

/-! ### Operand values depend on the registers alone -/

@[simp] theorem value_lit (s : State) (v : Word) : value s (.lit v) = v := rfl
@[simp] theorem value_reg (s : State) (r : Reg) : value s (.reg r) = readReg s r := rfl

theorem value_congr {s t : State} (h : t.regs = s.regs) (o : Operand) : value t o = value s o := by
  cases o <;> simp [value, readReg, h]

/-! ### Successive advances -/

theorem advance_advance (m n : Nat) (s : State) : advance n (advance m s) = advance (m + n) s := by
  simp [advance, setPc, BitVec.add_assoc, BitVec.ofNat_add]

@[simp] theorem advance_zero (s : State) : advance 0 s = s := by
  simp [advance, setPc]

/-- `raise` twice leaves the second; a crash does not depend on the status before it. -/
theorem raise_raise (e f : FatalCondition) (i j : Word) (s : State) : raise f j (raise e i s) = raise f j s := rfl

/-- Holding reset twice is holding it once. -/
@[simp] theorem applyReset_applyReset (s : State) : applyReset (applyReset s) = applyReset s := rfl

end Sys2Proof.Machine
end

