-- ==== Sys2Proof/Laws/Environment.lean ====
section
/-! SUPPORT. What the host admits as an image, and what its start of a run can do, once. -/

namespace Sys2Proof.Machine

@[simp] theorem release_config (im i : List Word) (e : Bool) (k : Sink) (s : State) : (release im i e k s).config = s.config := rfl
@[simp] theorem release_regs (im i : List Word) (e : Bool) (k : Sink) (s : State) : (release im i e k s).regs = s.regs := rfl
@[simp] theorem release_pc (im i : List Word) (e : Bool) (k : Sink) (s : State) : (release im i e k s).pc = s.pc := rfl
@[simp] theorem release_stack (im i : List Word) (e : Bool) (k : Sink) (s : State) : (release im i e k s).stack = s.stack := rfl
@[simp] theorem release_mem (im i : List Word) (e : Bool) (k : Sink) (s : State) :
    (release im i e k s).mem = storeWords [] 0 im := rfl
@[simp] theorem release_runState (im i : List Word) (e : Bool) (k : Sink) (s : State) :
    (release im i e k s).runState = s.runState := rfl
@[simp] theorem release_cause (im i : List Word) (e : Bool) (k : Sink) (s : State) : (release im i e k s).cause = s.cause := rfl
@[simp] theorem release_faultInfo (im i : List Word) (e : Bool) (k : Sink) (s : State) :
    (release im i e k s).faultInfo = s.faultInfo := rfl
@[simp] theorem release_input (im i : List Word) (e : Bool) (k : Sink) (s : State) : (release im i e k s).input = i := rfl
@[simp] theorem release_inputEnded (im i : List Word) (e : Bool) (k : Sink) (s : State) :
    (release im i e k s).inputEnded = e := rfl
@[simp] theorem release_inputPos (im i : List Word) (e : Bool) (k : Sink) (s : State) :
    (release im i e k s).inputPos = s.inputPos := rfl
@[simp] theorem release_output (im i : List Word) (e : Bool) (k : Sink) (s : State) : (release im i e k s).output = s.output := rfl
@[simp] theorem release_sink (im i : List Word) (e : Bool) (k : Sink) (s : State) : (release im i e k s).sink = k := rfl
@[simp] theorem release_rst (im i : List Word) (e : Bool) (k : Sink) (s : State) : (release im i e k s).rst = false := rfl
@[simp] theorem readReg_release (im i : List Word) (e : Bool) (k : Sink) (s : State) (r : Reg) :
    readReg (release im i e k s) r = readReg s r := rfl

theorem length_wordsOfBytes : ∀ bs : List Byte, (wordsOfBytes bs).length = bs.length / 2
  | [] => rfl
  | [_] => by simp [wordsOfBytes]
  | lo :: hi :: bs => by simp only [wordsOfBytes, List.length_cons, length_wordsOfBytes bs]; omega

/-- R55, R203: the host admits exactly the files that are there, of an even byte count and of at most `MEM_WORDS` words. -/
theorem admitImage_eq_ok {c : Config} {file : Option (List Byte)} {image : List Word} :
    admitImage c file = .ok image ↔
      ∃ bs, file = some bs ∧ bs.length % 2 = 0 ∧ bs.length ≤ 2 * c.memWords ∧ image = wordsOfBytes bs := by
  cases file with
  | none => simp [admitImage]
  | some bs =>
    have hl := length_wordsOfBytes bs
    by_cases h2 : bs.length % 2 = 0
    · by_cases h : bs.length ≤ 2 * c.memWords
      · have : (wordsOfBytes bs).length ≤ c.memWords := by omega
        simp [admitImage, imageOfBytes, imageFits, h2, h, this, eq_comm]
      · have : ¬ (wordsOfBytes bs).length ≤ c.memWords := by omega
        simp [admitImage, imageOfBytes, imageFits, h2, h, this]
    · simp [admitImage, imageOfBytes, h2]

/-- R55, R203: a start under `rst` with a file the host admits releases the core on its image; any other changes nothing. -/
theorem startRun_cases (file : Option (List Byte)) (input : List Word) (ended : Bool) (sink : Sink) (s : State) :
    (∃ bs, s.rst = true ∧ file = some bs ∧ bs.length % 2 = 0 ∧ bs.length ≤ 2 * s.config.memWords ∧
      startRun file input ended sink s = release (wordsOfBytes bs) input ended sink s) ∨
    (startRun file input ended sink s = s ∧
      (s.rst = true → ∀ bs, file = some bs → bs.length % 2 = 1 ∨ 2 * s.config.memWords < bs.length)) := by
  unfold startRun
  cases hr : s.rst with
  | false => exact .inr ⟨by simp, by simp⟩
  | true =>
    cases ha : admitImage s.config file with
    | ok image =>
      obtain ⟨bs, hf, h2, hl, rfl⟩ := admitImage_eq_ok.mp ha
      exact .inl ⟨bs, rfl, hf, h2, hl, by simp⟩
    | error why =>
      refine .inr ⟨by simp, fun _ bs hf => ?_⟩
      by_contra h
      have := (admitImage_eq_ok (c := s.config)).mpr ⟨bs, hf, by omega, by omega, rfl⟩
      rw [ha] at this; cases this

end Sys2Proof.Machine
end

