-- ==== Sys2Proof/Laws/Memory.lean ====
section
/-! SUPPORT. The laws of the byte store and of words in it: read after write, the canonical form, the bound. -/

namespace Sys2Proof.Machine

/-! ### One byte -/

theorem readByte_eraseByte_same (m : Memory) (a : Nat) : readByte (eraseByte m a) a = Memory.unlistedByte := by
  induction m with
  | nil => rfl
  | cons c rest ih =>
    obtain ⟨b, x⟩ := c
    by_cases h : b = a
    · simpa [eraseByte, h] using ih
    · simpa [eraseByte, h, readByte] using ih

theorem readByte_eraseByte_ne {a b : Nat} (h : b ≠ a) (m : Memory) : readByte (eraseByte m a) b = readByte m b := by
  induction m with
  | nil => rfl
  | cons c rest ih =>
    obtain ⟨k, x⟩ := c
    by_cases hk : k = a
    · have : k ≠ b := fun e => h (e.symm.trans hk)
      simpa [eraseByte, hk, readByte, this, h.symm] using ih
    · by_cases hb : k = b
      · simp [eraseByte, readByte, hb, h]
      · simpa [eraseByte, hk, readByte, hb] using ih

theorem readByte_insertByte_same {m : Memory} {a : Nat} (h : ∀ c ∈ m, c.1 ≠ a) (v : Byte) :
    readByte (insertByte m a v) a = v := by
  induction m with
  | nil => simp [insertByte, readByte]
  | cons c rest ih =>
    obtain ⟨b, x⟩ := c
    have hb : b ≠ a := h (b, x) (by simp)
    simp only [insertByte]
    split
    · simp [readByte]
    · simpa [readByte, hb] using ih fun c hc => h c (by simp [hc])

theorem readByte_insertByte_ne {a b : Nat} (h : b ≠ a) (m : Memory) (v : Byte) :
    readByte (insertByte m a v) b = readByte m b := by
  induction m with
  | nil => simp [insertByte, readByte, h.symm]
  | cons c rest ih =>
    obtain ⟨k, x⟩ := c
    simp only [insertByte]
    split
    · simp [readByte, h.symm]
    · simp [readByte, ih]

theorem ne_of_mem_eraseByte {m : Memory} {a : Nat} {c : Host.Cell} (h : c ∈ eraseByte m a) : c.1 ≠ a := by
  simpa using (List.mem_filter.mp h).2

@[simp] theorem readByte_writeByte_same (m : Memory) (a : Nat) (v : Byte) : readByte (writeByte m a v) a = v := by
  unfold writeByte
  split
  · next h => simpa [h] using readByte_eraseByte_same m a
  · exact readByte_insertByte_same (fun _ hc => ne_of_mem_eraseByte hc) v

theorem readByte_writeByte_ne {a b : Nat} (h : b ≠ a) (m : Memory) (v : Byte) :
    readByte (writeByte m a v) b = readByte m b := by
  unfold writeByte
  split
  · exact readByte_eraseByte_ne h m
  · rw [readByte_insertByte_ne h, readByte_eraseByte_ne h]

/-! ### The canonical form and the bound -/

theorem wf_eraseByte {m : Memory} (h : Memory.wf m) (a : Nat) : Memory.wf (eraseByte m a) :=
  ⟨h.1.sublist List.filter_sublist, fun c hc => h.2 c (List.mem_of_mem_filter hc)⟩

theorem mem_insertByte {m : Memory} {a : Nat} {v : Byte} {c : Host.Cell} (h : c ∈ insertByte m a v) :
    c = (a, v) ∨ c ∈ m := by
  induction m with
  | nil => simpa [insertByte] using h
  | cons d rest ih =>
    obtain ⟨b, x⟩ := d
    simp only [insertByte] at h
    split at h
    · simpa using h
    · rcases List.mem_cons.mp h with h | h
      · exact .inr (by simp [h])
      · exact (ih h).imp id (by simp +contextual)

theorem wf_insertByte {m : Memory} {a : Nat} {v : Byte} (h : Memory.wf m) (ha : ∀ c ∈ m, c.1 ≠ a)
    (hv : v ≠ Memory.unlistedByte) : Memory.wf (insertByte m a v) := by
  refine ⟨?_, fun c hc => ?_⟩
  · obtain ⟨hs, -⟩ := h
    induction m with
    | nil => simp [insertByte]
    | cons d rest ih =>
      obtain ⟨b, x⟩ := d
      obtain ⟨hb, hr⟩ := List.pairwise_cons.mp hs
      have hne : b ≠ a := ha (b, x) (by simp)
      simp only [insertByte]
      split
      · next hlt =>
        refine List.pairwise_cons.mpr ⟨fun c hc => ?_, hs⟩
        rcases List.mem_cons.mp hc with rfl | hc
        · exact hlt
        · exact hlt.trans (hb c hc)
      · next hlt =>
        refine List.pairwise_cons.mpr ⟨fun c hc => ?_, ih (fun c hc => ha c (by simp [hc])) hr⟩
        rcases mem_insertByte hc with rfl | hc
        · exact lt_of_le_of_ne (not_lt.mp hlt) hne
        · exact hb c hc
  · rcases mem_insertByte hc with rfl | hc
    · exact hv
    · exact h.2 c hc

theorem wf_writeByte {m : Memory} (h : Memory.wf m) (a : Nat) (v : Byte) : Memory.wf (writeByte m a v) := by
  unfold writeByte
  split
  · exact wf_eraseByte h a
  · next hv => exact wf_insertByte (wf_eraseByte h a) (fun _ hc => ne_of_mem_eraseByte hc) hv

theorem mem_writeByte {m : Memory} {a : Nat} {v : Byte} {c : Host.Cell} (h : c ∈ writeByte m a v) :
    c.1 = a ∨ c ∈ m := by
  unfold writeByte at h
  split at h
  · exact .inr (List.mem_of_mem_filter h)
  · exact (mem_insertByte h).imp (by simp +contextual) List.mem_of_mem_filter

/-! ### Words -/

@[simp] theorem wordOfBytes_low_high (w : Word) : wordOfBytes (lowByte w) (highByte w) = w := by
  apply BitVec.eq_of_getLsbD_eq
  intro i hi
  simp only [wordOfBytes, lowByte, highByte, BitVec.getLsbD_append, BitVec.getLsbD_extractLsb']
  by_cases h : i < 8
  · simp [h]
  · have h8 : i - 8 < 8 := by omega
    have hi' : 8 + (i - 8) = i := by omega
    simp [h, h8, hi']

@[simp] theorem lowByte_wordOfBytes (lo hi : Byte) : lowByte (wordOfBytes lo hi) = lo := by
  apply BitVec.eq_of_getLsbD_eq
  intro i hi
  simp only [wordOfBytes, lowByte, BitVec.getLsbD_append, BitVec.getLsbD_extractLsb']
  simp [hi]

@[simp] theorem highByte_wordOfBytes (lo hi : Byte) : highByte (wordOfBytes lo hi) = hi := by
  apply BitVec.eq_of_getLsbD_eq
  intro i h
  simp only [wordOfBytes, highByte, BitVec.getLsbD_append, BitVec.getLsbD_extractLsb']
  simp [h]

/-- What a word write leaves in each byte (R43). -/
theorem readByte_writeWord (m : Memory) (a : Nat) (w : Word) (b : Nat) :
    readByte (writeWord m a w) b =
      if b = 2 * a then lowByte w else if b = 2 * a + 1 then highByte w else readByte m b := by
  unfold writeWord
  by_cases h1 : b = 2 * a + 1
  · subst h1; simp
  · rw [readByte_writeByte_ne h1]
    by_cases h0 : b = 2 * a
    · subst h0; simp
    · rw [readByte_writeByte_ne h0]; simp [h0, h1]

@[simp] theorem readWord_writeWord_same (m : Memory) (a : Nat) (w : Word) : readWord (writeWord m a w) a = w := by
  simp [readWord, readByte_writeWord]

theorem readWord_writeWord_ne {a b : Nat} (h : b ≠ a) (m : Memory) (w : Word) :
    readWord (writeWord m a w) b = readWord m b := by
  have h1 : 2 * b ≠ 2 * a + 1 := by omega
  have h2 : 2 * b + 1 ≠ 2 * a := by omega
  simp [readWord, readByte_writeWord, h, h1, h2]

/-- Words are read from bytes alone. -/
theorem readWord_congr {m n : Memory} (h : ∀ a, readByte n a = readByte m a) (a : Nat) :
    readWord n a = readWord m a := by
  simp [readWord, h]

theorem wf_writeWord {m : Memory} (h : Memory.wf m) (a : Nat) (w : Word) : Memory.wf (writeWord m a w) :=
  wf_writeByte (wf_writeByte h _ _) _ _

theorem mem_writeWord {m : Memory} {a : Nat} {w : Word} {c : Host.Cell} (h : c ∈ writeWord m a w) :
    c.1 = 2 * a ∨ c.1 = 2 * a + 1 ∨ c ∈ m := by
  rcases mem_writeByte h with h | h
  · exact .inr (.inl h)
  · exact (mem_writeByte h).imp id .inr

theorem bounded_writeWord {m : Memory} {n a : Nat} (h : ∀ c ∈ m, c.1 < 2 * n) (ha : a < n) (w : Word) :
    ∀ c ∈ writeWord m a w, c.1 < 2 * n := by
  intro c hc
  rcases mem_writeWord hc with h' | h' | h'
  · omega
  · omega
  · exact h c h'

/-! ### Several words -/

theorem wf_storeWords {m : Memory} (h : Memory.wf m) (a : Nat) (ws : List Word) : Memory.wf (storeWords m a ws) := by
  induction ws generalizing m a with
  | nil => exact h
  | cons w ws ih => exact ih (wf_writeWord h a w) (a + 1)

theorem bounded_storeWords {m : Memory} {n a : Nat} (h : ∀ c ∈ m, c.1 < 2 * n) {ws : List Word}
    (ha : a + ws.length ≤ n) : ∀ c ∈ storeWords m a ws, c.1 < 2 * n := by
  induction ws generalizing m a with
  | nil => exact h
  | cons w ws ih =>
    simp only [List.length_cons] at ha
    exact ih (bounded_writeWord h (by omega) w) (by omega)

theorem wf_placeWords {m : Memory} (h : Memory.wf m) (n : Nat) (a : Word) (ws : List Word) :
    Memory.wf (placeWords n m a ws) := by
  induction ws generalizing m a with
  | nil => exact h
  | cons w ws ih =>
    simp only [placeWords]
    apply ih
    split
    · exact h
    · exact wf_writeWord h _ w

theorem bounded_placeWords {m : Memory} {n : Nat} (h : ∀ c ∈ m, c.1 < 2 * n) (a : Word) (ws : List Word) :
    ∀ c ∈ placeWords n m a ws, c.1 < 2 * n := by
  induction ws generalizing m a with
  | nil => exact h
  | cons w ws ih =>
    simp only [placeWords]
    apply ih
    split
    · exact h
    · next hlt => exact bounded_writeWord h (not_le.mp hlt) w

/-- An address below the first word stored reads as before. -/
theorem readWord_storeWords_below {a b : Nat} (h : b < a) (m : Memory) (ws : List Word) :
    readWord (storeWords m a ws) b = readWord m b := by
  induction ws generalizing m a with
  | nil => rfl
  | cons w ws ih =>
    simp only [storeWords]
    rw [ih (by omega), readWord_writeWord_ne (by omega)]

end Sys2Proof.Machine
end

