-- ==== Sys2Proof/Laws/Ops.lean ====
section
/-! SUPPORT. What each shared operation can do, once: its cases, for callers to cite. -/

namespace Sys2Proof.Machine

/-- R15: a full stack raises, else the word is on top. -/
theorem push_cases (v : Word) (s : State) (k : State → State) :
    (stackFull s = true ∧ push v s k = raise .stackOverflow v s) ∨
    (stackFull s = false ∧ push v s k = k { s with stack := s.stack ++ [v] }) := by
  cases h : stackFull s <;> simp [push, h]

/-- An unbounded stack is never full. -/
theorem stackFull_unbounded {s : State} (h : s.config.stackDepth = none) : stackFull s = false := by
  simp [stackFull, h]

/-- A finite stack is full at its depth. -/
theorem stackFull_iff (s : State) : stackFull s = true ↔ s.config.stackDepth = some s.stack.length := by
  unfold stackFull
  split <;> simp_all [eq_comm]

@[simp] theorem stackFull_advance (n : Nat) (s : State) : stackFull (advance n s) = stackFull s := rfl

/-- R16: an empty stack raises, else the last word is taken off. -/
theorem pop_cases (s : State) (k : Word → State → State) :
    (s.stack = [] ∧ pop s k = raise .stackUnderflow 0 s) ∨
    (∃ rest v, s.stack = rest ++ [v] ∧ pop s k = k v { s with stack := rest }) := by
  rcases List.eq_nil_or_concat s.stack with h | ⟨rest, v, h⟩
  · exact .inl ⟨h, by simp [pop, h]⟩
  · exact .inr ⟨rest, v, by simpa using h, by simp [pop, h]⟩

theorem pop_append {s : State} {rest : List Word} {v : Word} (h : s.stack = rest ++ [v]) (k : Word → State → State) :
    pop s k = k v { s with stack := rest } := by
  simp [pop, h]

@[simp] theorem outOfRange_advance (n : Nat) (s : State) (a : Word) : outOfRange (advance n s) a = outOfRange s a := rfl

theorem outOfRange_iff (s : State) (a : Word) : outOfRange s a = true ↔ s.config.memWords ≤ a.toNat := by
  simp [outOfRange]

/-- R46: an address outside memory raises, else the word is read. -/
theorem memRead_cases (a : Word) (s : State) (k : Word → State) :
    (s.config.memWords ≤ a.toNat ∧ memRead a s k = raise .addressOutOfRange a s) ∨
    (a.toNat < s.config.memWords ∧ memRead a s k = k (readWord s.mem a.toNat)) := by
  by_cases h : s.config.memWords ≤ a.toNat
  · exact .inl ⟨h, by simp [memRead, outOfRange, h]⟩
  · exact .inr ⟨by omega, by simp [memRead, outOfRange, h]⟩

/-- R47: an address outside memory raises, else the word is written. -/
theorem memWrite_cases (a v : Word) (s : State) :
    (s.config.memWords ≤ a.toNat ∧ memWrite a v s = raise .addressOutOfRange a s) ∨
    (a.toNat < s.config.memWords ∧ memWrite a v s = { s with mem := writeWord s.mem a.toNat v }) := by
  by_cases h : s.config.memWords ≤ a.toNat
  · exact .inl ⟨h, by simp [memWrite, outOfRange, h]⟩
  · exact .inr ⟨by omega, by simp [memWrite, outOfRange, h]⟩

/-- R160: the word is handed over, or the step holds, or the sink has failed. -/
theorem emit_cases (start : State) (c : Word) (s : State) :
    (s.sink = .ready ∧ emit start c s = { s with output := s.output ++ [c] }) ∨
    (s.sink = .busy ∧ emit start c s = start) ∨
    (s.sink = .failed ∧ emit start c s = raise .outputFailure c s) := by
  cases h : s.sink <;> simp [emit, h]

/-- R162: a word is taken, or the stream has ended, or the step holds. -/
theorem receive_cases (start : State) (s : State) (k : Word → State → State) :
    (∃ c rest, s.input = c :: rest ∧
      receive start s k = k c { s with input := rest, inputPos := s.inputPos + 1 }) ∨
    (s.input = [] ∧ s.inputEnded = true ∧ receive start s k = raise .inputFailure 0 s) ∨
    (s.input = [] ∧ s.inputEnded = false ∧ receive start s k = start) := by
  cases h : s.input with
  | nil => cases he : s.inputEnded <;> simp [receive, h, he]
  | cons c rest => simp [receive, h]

/-- R80: an address outside memory raises with `pc` unchanged, else the word is read and `pc` advanced. -/
theorem fetchWord_cases (s : State) (k : Word → State → State) :
    (s.config.memWords ≤ s.pc.toNat ∧ fetchWord s k = raise .addressOutOfRange s.pc s) ∨
    (s.pc.toNat < s.config.memWords ∧ fetchWord s k = k (readWord s.mem s.pc.toNat) (advance 1 s)) :=
  memRead_cases s.pc s _

/-- No latched condition has code 0. -/
theorem code_ne_zero (e : FatalCondition) : e.code ≠ 0 := by cases e <;> decide

/-- Codes tell the conditions apart (R170). -/
theorem code_injective {e f : FatalCondition} (h : e.code = f.code) : e = f := by
  revert h; cases e <;> cases f <;> decide

end Sys2Proof.Machine
end

