-- ==== Sys2Proof/Laws/PerInstr.lean ====
section
/-! SUPPORT. Per-instruction families: the length of the encoding is the format's (30_encoding.md R61, R65), in words and in
bytes. -/

namespace Sys2Proof.Laws.EncodeLength

/-- R65: the encoding of an instruction has the words its format gives. -/
def Statement (i : Instr) : Prop := (encode i).length = i.length

theorem halt : Statement .halt := rfl
theorem set (d : Reg) (v : Operand) : Statement (.set d v) := rfl
theorem push (v : Operand) : Statement (.push v) := rfl
theorem pop (d : Reg) : Statement (.pop d) := rfl
theorem eq (d : Reg) (a b : Operand) : Statement (.eq d a b) := rfl
theorem gt (d : Reg) (a b : Operand) : Statement (.gt d a b) := rfl
theorem jmp (t : Operand) : Statement (.jmp t) := rfl
theorem jt (c t : Operand) : Statement (.jt c t) := rfl
theorem jf (c t : Operand) : Statement (.jf c t) := rfl
theorem add (d : Reg) (a b : Operand) : Statement (.add d a b) := rfl
theorem mult (d : Reg) (a b : Operand) : Statement (.mult d a b) := rfl
theorem mod (d : Reg) (a b : Operand) : Statement (.mod d a b) := rfl
theorem and (d : Reg) (a b : Operand) : Statement (.and d a b) := rfl
theorem or (d : Reg) (a b : Operand) : Statement (.or d a b) := rfl
theorem not (d : Reg) (a : Operand) : Statement (.not d a) := rfl
theorem rmem (d : Reg) (m : Operand) : Statement (.rmem d m) := rfl
theorem wmem (m v : Operand) : Statement (.wmem m v) := rfl
theorem call (t : Operand) : Statement (.call t) := rfl
theorem ret : Statement .ret := rfl
theorem out (c : Operand) : Statement (.out c) := rfl
theorem inp (d : Reg) : Statement (.inp d) := rfl
theorem noop : Statement .noop := rfl

end Sys2Proof.Laws.EncodeLength

namespace Sys2Proof.Laws.EncodeBytesLength

/-- R69: the encoding of an instruction has two bytes a word. -/
def Statement (i : Instr) : Prop := (encodeBytes i).length = 2 * i.length

theorem halt : Statement .halt := rfl
theorem set (d : Reg) (v : Operand) : Statement (.set d v) := rfl
theorem push (v : Operand) : Statement (.push v) := rfl
theorem pop (d : Reg) : Statement (.pop d) := rfl
theorem eq (d : Reg) (a b : Operand) : Statement (.eq d a b) := rfl
theorem gt (d : Reg) (a b : Operand) : Statement (.gt d a b) := rfl
theorem jmp (t : Operand) : Statement (.jmp t) := rfl
theorem jt (c t : Operand) : Statement (.jt c t) := rfl
theorem jf (c t : Operand) : Statement (.jf c t) := rfl
theorem add (d : Reg) (a b : Operand) : Statement (.add d a b) := rfl
theorem mult (d : Reg) (a b : Operand) : Statement (.mult d a b) := rfl
theorem mod (d : Reg) (a b : Operand) : Statement (.mod d a b) := rfl
theorem and (d : Reg) (a b : Operand) : Statement (.and d a b) := rfl
theorem or (d : Reg) (a b : Operand) : Statement (.or d a b) := rfl
theorem not (d : Reg) (a : Operand) : Statement (.not d a) := rfl
theorem rmem (d : Reg) (m : Operand) : Statement (.rmem d m) := rfl
theorem wmem (m v : Operand) : Statement (.wmem m v) := rfl
theorem call (t : Operand) : Statement (.call t) := rfl
theorem ret : Statement .ret := rfl
theorem out (c : Operand) : Statement (.out c) := rfl
theorem inp (d : Reg) : Statement (.inp d) := rfl
theorem noop : Statement .noop := rfl

end Sys2Proof.Laws.EncodeBytesLength
end

