-- ==== Sys2Proof/Laws/Fetch.lean ====
section
/-! SUPPORT. What the fetch window holds: a run of known words at `pc`, then the rest of the window. -/

namespace Sys2Proof.Machine

/-- The word after the next one, seen from the next address. -/
theorem addr_succ (a : Word) (k : Nat) : a + BitVec.ofNat 16 (k + 1) = a + 1 + BitVec.ofNat 16 k := by
  rw [BitVec.ofNat_add, BitVec.add_comm (BitVec.ofNat 16 k), ← BitVec.add_assoc]
  rfl

/-- Words known to stand in memory at `a` are the head of the window at `a`. -/
theorem windowFrom_prefix (memWords : Nat) (m : Memory) (ws : List Word) (n : Nat) (a : Word) (hn : ws.length ≤ n)
    (h : ∀ j w, ws[j]? = some w → (a + BitVec.ofNat 16 j).toNat < memWords ∧
      readWord m (a + BitVec.ofNat 16 j).toNat = w) :
    windowFrom memWords m a n =
      ws ++ windowFrom memWords m (a + BitVec.ofNat 16 ws.length) (n - ws.length) := by
  induction ws generalizing n a with
  | nil => simp
  | cons w ws ih =>
    cases n with
    | zero => simp at hn
    | succ n =>
      obtain ⟨hlt, hw⟩ := h 0 w (by simp)
      simp only [BitVec.add_zero] at hlt hw
      have tail := ih n (a + 1) (by simpa using hn)
        (fun j v hj => by rw [← addr_succ]; exact h (j + 1) v (by simpa using hj))
      simp only [windowFrom, Nat.not_le.mpr hlt, if_false, hw, List.cons_append, List.length_cons, tail, addr_succ,
        Nat.add_sub_add_right]

/-- A window ends before the first address outside memory (R48). -/
theorem windowFrom_outside {memWords : Nat} {a : Word} (h : memWords ≤ a.toNat) (m : Memory) (n : Nat) :
    windowFrom memWords m a n = [] := by
  cases n <;> simp [windowFrom, h]

/-- Inside memory a window of one word or more begins with the word there. -/
theorem windowFrom_inside {memWords : Nat} {a : Word} (h : a.toNat < memWords) (m : Memory) (n : Nat) :
    windowFrom memWords m a (n + 1) = readWord m a.toNat :: windowFrom memWords m (a + 1) n := by
  simp [windowFrom, Nat.not_le.mpr h]

/-- R60: no instruction is longer than four words. -/
theorem length_le_four (i : Instr) : i.length ≤ 4 := by
  cases i <;> simp [Instr.length, Instr.format, Format.words]

/-- Every rejection is one `raise` past the words used, of a condition the core latches. -/
theorem crashOnReject_eq_raise (e : DecodeError) (used : Nat) (s : State) :
    ∃ f info, (f ≠ .programNotFound ∧ f ≠ .literalExpected) ∧ crashOnReject e used s = raise f info (advance used s) := by
  cases e <;> exact ⟨_, _, by simp, rfl⟩

end Sys2Proof.Machine
end

