-- ==== Sys2Proof/Tests/Slice0.lean ====
section
/-! SUPPORT. Tests: the well-formedness smoke tests, decoding of words written out from 30_encoding.md R64, single steps with the
results 95_test_vectors.md gives, and a witness for the hypotheses of every statement that has some. -/

namespace Sys2Proof.Tests

open Sys2Proof Sys2Proof.Machine

/-! ### Small states -/

/-- A reset core with an image at address 0. -/
def load (ws : List Word) : State := { State.reset with mem := storeWords [] 0 ws }

/-- The state one step later. -/
def next (s : State) : State := applyMove .core s

def withStack (st : List Word) (s : State) : State := { s with stack := st }

def withDepth (d : Nat) (s : State) : State := { s with config := { s.config with stackDepth := some d } }

def withInput (ws : List Word) (ended : Bool) (s : State) : State := { s with input := ws, inputEnded := ended }

def withSink (k : Sink) (s : State) : State := { s with sink := k }

/-- A core about to fetch these words at an address. -/
def fetching (ws : List Word) (a : Word) : State := placeAtFetch ws (setPc a State.reset)

/-- A core with a memory of one word, which holds `ret`. -/
def oneWord : State := { load [18] with config := { memWords := 1, stackDepth := none } }

/-- The words of an instruction's prefix, checked one by one. -/
theorem prefixAt_of_each {i : Instr} {k : Nat} {s : State}
    (h : ∀ j : Fin ((encode i).take k).length, (wordAddr s j.val).toNat < s.config.memWords ∧
      readWord s.mem (wordAddr s j.val).toNat = ((encode i).take k)[j.val]) : PrefixAt i k s := by
  intro j w hj
  obtain ⟨hlt, rfl⟩ := List.getElem?_eq_some_iff.mp hj
  exact h ⟨j, hlt⟩

/-! ### Ill-formed terms, one for each check of WellFormed (R62: a literal is at most 32767) -/

theorem test_wf_boundary : (Operand.lit 32767).wf = true ∧ (Operand.lit 32768).wf = false ∧ (Operand.reg 7).wf = true := by
  decide
theorem test_illformed_set : (Instr.set 0 (.lit 32768)).wf = false := by decide
theorem test_illformed_push : (Instr.push (.lit 32768)).wf = false := by decide
theorem test_illformed_eq :
    (Instr.eq 0 (.lit 32768) (.lit 0)).wf = false ∧ (Instr.eq 0 (.lit 0) (.lit 65535)).wf = false := by decide
theorem test_illformed_gt :
    (Instr.gt 0 (.lit 32768) (.lit 0)).wf = false ∧ (Instr.gt 0 (.lit 0) (.lit 65535)).wf = false := by decide
theorem test_illformed_jmp : (Instr.jmp (.lit 32769)).wf = false := by decide
theorem test_illformed_jt : (Instr.jt (.lit 32768) (.lit 0)).wf = false ∧ (Instr.jt (.lit 0) (.lit 40000)).wf = false := by
  decide
theorem test_illformed_jf : (Instr.jf (.lit 32768) (.lit 0)).wf = false ∧ (Instr.jf (.lit 0) (.lit 40000)).wf = false := by
  decide
theorem test_illformed_add :
    (Instr.add 0 (.lit 32768) (.lit 0)).wf = false ∧ (Instr.add 0 (.lit 0) (.lit 65535)).wf = false := by decide
theorem test_illformed_mult :
    (Instr.mult 0 (.lit 32768) (.lit 0)).wf = false ∧ (Instr.mult 0 (.lit 0) (.lit 65535)).wf = false := by decide
theorem test_illformed_mod :
    (Instr.mod 0 (.lit 32768) (.lit 0)).wf = false ∧ (Instr.mod 0 (.lit 0) (.lit 65535)).wf = false := by decide
theorem test_illformed_and :
    (Instr.and 0 (.lit 32768) (.lit 0)).wf = false ∧ (Instr.and 0 (.lit 0) (.lit 65535)).wf = false := by decide
theorem test_illformed_or :
    (Instr.or 0 (.lit 32768) (.lit 0)).wf = false ∧ (Instr.or 0 (.lit 0) (.lit 65535)).wf = false := by decide
theorem test_illformed_not : (Instr.not 0 (.lit 32768)).wf = false := by decide
theorem test_illformed_rmem : (Instr.rmem 0 (.lit 32768)).wf = false := by decide
theorem test_illformed_wmem :
    (Instr.wmem (.lit 32768) (.lit 0)).wf = false ∧ (Instr.wmem (.lit 0) (.lit 32776)).wf = false := by decide
theorem test_illformed_call : (Instr.call (.lit 32768)).wf = false := by decide
theorem test_illformed_out : (Instr.out (.lit 32768)).wf = false := by decide

/-! ### Decoding: one word sequence for every constructor, written out from R64 (R+k is 32768 + k) -/

theorem test_decode_halt : decodeWords [0x0000] = .instr .halt [] 1 := by decide
theorem test_decode_set : decodeWords [0x0001, 0x8002, 0x01F4] = .instr (.set 2 (.lit 500)) [] 3 := by decide
theorem test_decode_push : decodeWords [0x0002, 0x8001] = .instr (.push (.reg 1)) [] 2 := by decide
theorem test_decode_pop : decodeWords [0x0003, 0x8007] = .instr (.pop 7) [] 2 := by decide
theorem test_decode_eq : decodeWords [0x0004, 0x8001, 0x8000, 0x000A] = .instr (.eq 1 (.reg 0) (.lit 10)) [] 4 := by decide
theorem test_decode_gt : decodeWords [0x0005, 0x8002, 0x8001, 0x8000] = .instr (.gt 2 (.reg 1) (.reg 0)) [] 4 := by decide
theorem test_decode_jmp : decodeWords [0x0006, 0x0064] = .instr (.jmp (.lit 100)) [] 2 := by decide
theorem test_decode_jt : decodeWords [0x0007, 0x8000, 0x0006] = .instr (.jt (.reg 0) (.lit 6)) [] 3 := by decide
theorem test_decode_jf : decodeWords [0x0008, 0x0000, 0x0005] = .instr (.jf (.lit 0) (.lit 5)) [] 3 := by decide
theorem test_decode_add : decodeWords [0x0009, 0x8000, 0x8001, 0x0004] = .instr (.add 0 (.reg 1) (.lit 4)) [] 4 := by decide
theorem test_decode_mult : decodeWords [0x000A, 0x8000, 0x8000, 0x001E] = .instr (.mult 0 (.reg 0) (.lit 30)) [] 4 := by
  decide
theorem test_decode_mod : decodeWords [0x000B, 0x8000, 0x0064, 0x0007] = .instr (.mod 0 (.lit 100) (.lit 7)) [] 4 := by
  decide
theorem test_decode_and : decodeWords [0x000C, 0x8000, 0x5555, 0x3333] = .instr (.and 0 (.lit 21845) (.lit 13107)) [] 4 := by
  decide
theorem test_decode_or : decodeWords [0x000D, 0x8000, 0x5555, 0x3333] = .instr (.or 0 (.lit 21845) (.lit 13107)) [] 4 := by
  decide
theorem test_decode_not : decodeWords [0x000E, 0x8000, 0x5555] = .instr (.not 0 (.lit 21845)) [] 3 := by decide
theorem test_decode_rmem : decodeWords [0x000F, 0x8002, 0x0014] = .instr (.rmem 2 (.lit 20)) [] 3 := by decide
theorem test_decode_wmem : decodeWords [0x0010, 0x0014, 0x8000] = .instr (.wmem (.lit 20) (.reg 0)) [] 3 := by decide
theorem test_decode_call : decodeWords [0x0011, 0x000A] = .instr (.call (.lit 10)) [] 2 := by decide
theorem test_decode_ret : decodeWords [0x0012, 0x0005] = .instr .ret [5] 1 := by decide
theorem test_decode_out : decodeWords [0x0013, 0x7FFF] = .instr (.out (.lit 32767)) [] 2 := by decide
theorem test_decode_in : decodeWords [0x0014, 0x8005] = .instr (.inp 5) [] 2 := by decide
theorem test_decode_noop : decodeWords [0x0015] = .instr .noop [] 1 := by decide

/-- R69's example, from its bytes. -/
theorem test_decode_bytes :
    decodeBytes [0x09, 0x00, 0x00, 0x80, 0x01, 0x80, 0x04, 0x00] = .instr (.add 0 (.reg 1) (.lit 4)) [] 4 := by decide

/-- 95_test_vectors.md 2.2, 2.3: the rejections. -/
theorem test_decode_rejections :
    decodeWords [22] = .rejected (.unknownOpcode 22) 1 ∧ decodeWords [1, 5, 7] = .rejected (.invalidRegister 5) 2 ∧
    decodeWords [1, 32768, 32776] = .rejected (.valueOutOfRange 32776) 3 ∧
    decodeWords [9, 32768, 1] = .rejected .truncated 3 ∧ decodeBytes [0x06, 0x00, 0x01] = .rejected .truncated 1 := by
  decide

/-- The host's numbering: bit 0 is the least significant bit of the first word, and missing operand words are 0. -/
theorem test_table_word :
    decodeTableWord 48 0x01F480020001 = some (.set 2 (.lit 500)) ∧ decodeTableWord 16 6 = some (.jmp (.lit 0)) ∧
    decodeTableWord 16 3 = none := by decide

/-- A row's word runs as the first instruction after reset. -/
theorem test_fetch_word :
    (next (State.reset.withFetchWord 48 0x01F480020001)).pc = 3 ∧
    readReg (next (State.reset.withFetchWord 48 0x01F480020001)) 2 = 500 := by decide

/-! ### Single steps (95_test_vectors.md section 2; the rule's own example where it has one) -/

theorem test_set : readReg (next (load [1, 32770, 500])) 2 = 500 ∧ (next (load [1, 32770, 500])).pc = 3 := by decide
theorem test_set_keeps_sixteen_bits : readReg (next (writeReg 1 40000 (load [1, 32768, 32769]))) 0 = 40000 := by decide
theorem test_push : (next (withStack [3] (load [2, 7]))).stack = [3, 7] := by decide
theorem test_push_full :
    (next (withDepth 1 (withStack [1] (load [2, 2])))).cause = 10 ∧
    (next (withDepth 1 (withStack [1] (load [2, 2])))).faultInfo = 2 := by decide
theorem test_pop :
    readReg (next (withStack [3, 7] (load [3, 32768]))) 0 = 7 ∧ (next (withStack [3, 7] (load [3, 32768]))).stack = [3] := by
  decide
theorem test_pop_empty : (next (load [3, 32768])).cause = 5 ∧ (next (load [3, 32768])).pc = 2 := by decide
theorem test_eq_all_bits : readReg (next (writeReg 0 32768 (load [4, 32770, 32768, 0]))) 2 = 0 := by decide
theorem test_eq : readReg (next (load [4, 32770, 5, 5])) 2 = 1 := by decide
theorem test_gt_unsigned : readReg (next (writeReg 0 40000 (load [5, 32770, 32768, 32767]))) 2 = 1 := by decide
theorem test_gt_order : readReg (next (load [5, 32770, 7, 9])) 2 = 0 := by decide
theorem test_add_wraps : readReg (next (load [9, 32770, 32767, 32767])) 2 = 32766 := by decide
theorem test_add_high : readReg (next (writeReg 0 40000 (load [9, 32770, 32768, 32768]))) 2 = 14464 := by decide
theorem test_mult_wraps : readReg (next (load [10, 32770, 1234, 30])) 2 = 4252 := by decide
theorem test_mult_high : readReg (next (writeReg 0 40000 (load [10, 32770, 32768, 7]))) 2 = 17856 := by decide
theorem test_mod : readReg (next (load [11, 32770, 100, 7])) 2 = 2 := by decide
theorem test_mod_zero :
    (next (load [11, 32770, 7, 0])).cause = 9 ∧ (next (load [11, 32770, 7, 0])).faultInfo = 7 ∧
    (next (load [11, 32770, 7, 0])).pc = 4 := by decide
theorem test_and : readReg (next (load [12, 32770, 21845, 13107])) 2 = 4369 := by decide
theorem test_or : readReg (next (load [13, 32770, 21845, 13107])) 2 = 30583 := by decide
theorem test_or_high : readReg (next (writeReg 0 40000 (load [13, 32770, 32768, 7]))) 2 = 40007 := by decide
theorem test_not : readReg (next (load [14, 32770, 21845])) 2 = 10922 := by decide
theorem test_not_high : readReg (next (writeReg 0 40000 (load [14, 32770, 32768]))) 2 = 25535 := by decide
theorem test_halt : (next (load [0])).runState = .halted ∧ (next (load [0])).pc = 1 := by decide
theorem test_jmp_any_word : (next (writeReg 0 40000 (load [6, 32768]))).pc = 40000 := by decide
theorem test_jt_high_bit : (next (writeReg 0 32768 (load [7, 32768, 9]))).pc = 9 := by decide
theorem test_jt_not_taken : (next (load [7, 0, 9])).pc = 3 := by decide
theorem test_jt_checks_target : (next (load [7, 0, 40000])).cause = 3 ∧ (next (load [7, 0, 40000])).pc = 3 := by decide
theorem test_jf_taken : (next (load [8, 0, 5])).pc = 5 := by decide
theorem test_jf_high_bit : (next (writeReg 0 32768 (load [8, 32768, 9]))).pc = 3 := by decide
theorem test_rmem : readReg (next (writeReg 0 3 (load [15, 32768, 32768, 1234]))) 0 = 1234 := by decide
theorem test_rmem_outside :
    (next (writeReg 0 40000 (load [15, 32769, 32768]))).cause = 8 ∧
    (next (writeReg 0 40000 (load [15, 32769, 32768]))).faultInfo = 40000 := by decide
theorem test_wmem : readWord (next (writeReg 0 1234 (load [16, 20, 32768]))).mem 20 = 1234 := by decide
theorem test_wmem_zero_is_unlisted : (next (load [16, 0, 0])).mem = [] := by decide
theorem test_call : (next (load [17, 10])).stack = [2] ∧ (next (load [17, 10])).pc = 10 := by decide
theorem test_ret : (next (withStack [9, 5] (load [18]))).pc = 5 ∧ (next (withStack [9, 5] (load [18]))).stack = [9] := by
  decide
theorem test_ret_empty : (next (load [18])).runState = .crashed ∧ (next (load [18])).pc = 1 := by decide
theorem test_out : (next (load [19, 65])).output = [65] := by decide
theorem test_out_failed :
    (next (withSink .failed (load [19, 65]))).cause = 11 ∧ (next (withSink .failed (load [19, 65]))).faultInfo = 65 := by
  decide
theorem test_in :
    readReg (next (withInput [65] false (load [20, 32773]))) 5 = 65 ∧
    (next (withInput [65] false (load [20, 32773]))).input = [] := by decide
theorem test_in_holds : next (load [20, 32768]) = load [20, 32768] := by decide
theorem test_noop : (next (load [21])).pc = 1 := by decide
theorem test_unknown_opcode : (next (load [22])).cause = 6 ∧ (next (load [22])).faultInfo = 22 := by decide
theorem test_fetch_outside :
    (next (setPc 32768 (load []))).cause = 8 ∧ (next (setPc 32768 (load []))).pc = 32768 := by decide

/-- 95_test_vectors.md 2.5, last note: with `MEM_WORDS` = 65536 the address 32769 is in memory. -/
theorem test_larger_memory :
    readReg (next { writeReg 0 32769 (load [15, 32769, 32768]) with
      config := { memWords := 65536, stackDepth := none }, mem := storeWords (storeWords [] 0 [15, 32769, 32768]) 32769 [7] }) 1
      = 7 := by decide

/-- R203: the host's start of a run. -/
theorem test_boot :
    (boot (some [6, 0, 3, 0]) [72] true .ready (next (load [18]))).runState = .running ∧
    (boot (some [6, 0, 3, 0]) [72] true .ready (next (load [18]))).mem = [(0, 6), (2, 3)] := by decide

/-- R55, R203, R212: a memory of one word and an image of two: the host does not start the core, whose memory is as it was. -/
theorem test_boot_refused :
    startReport oneWord.config (some [6, 0, 3, 0]) = some (.notStarted .imageTooLong) ∧
    (boot (some [6, 0, 3, 0]) [] true .ready oneWord).rst = true ∧
    (boot (some [6, 0, 3, 0]) [] true .ready oneWord).mem = oneWord.mem := by decide

/-! ### Witnesses: states and operands that meet the hypotheses of each statement -/

theorem witness_DecodeEncodeRoundTrip : (Instr.add 7 (.lit 32767) (.reg 0)).wf = true ∧ Instr.halt.wf = true := by decide

theorem witness_DecodeBytesRoundTrip : (Instr.wmem (.lit 0) (.lit 32767)).wf = true := by decide

theorem witness_DecodedWordsAreTheEncoding :
    decodeWords [13, 32775, 32767, 32768, 9] = .instr (.or 7 (.lit 32767) (.reg 0)) [9] 4 := by decide

theorem witness_OpcodeFixesLength :
    decodeWords [1, 32768, 0] = .instr (.set 0 (.lit 0)) [] 3 ∧
    decodeWords [1, 32775, 32775, 4] = .instr (.set 7 (.reg 7)) [4] 3 := by decide

theorem witness_IllegalOpcodeRejected : 22 ≤ (22 : Word).toNat ∧ 22 ≤ (65535 : Word).toNat := by decide

theorem witness_WordClassesPartition : isReg 32768 = true ∧ isReg 32775 = true := by decide

theorem witness_StepRunsDecodedInstruction :
    (load [1, 32770, 500]).active ∧ (Instr.set 2 (.lit 500)).wf = true ∧
    InstrAt (.set 2 (.lit 500)) (load [1, 32770, 500]) :=
  ⟨⟨rfl, rfl⟩, by decide, prefixAt_of_each (by decide)⟩

theorem witness_StepAgreesWithExecutor : State.reset.active := ⟨rfl, rfl⟩

/-- Both clauses of `ChecksWords` at the opcode word, for every instruction. -/
theorem witness_ChecksWords_opcode (i : Instr) :
    ((load [22]).active ∧ 0 < i.length ∧ PrefixAt i 0 (load [22]) ∧
      (wordAddr (load [22]) 0).toNat < (load [22]).config.memWords ∧
      readWord (load [22]).mem (wordAddr (load [22]) 0).toNat = 22 ∧ illegalAt i.format 0 22 = some .unknownOpcode) ∧
    ((setPc 32768 State.reset).active ∧ PrefixAt i 0 (setPc 32768 State.reset) ∧
      (setPc 32768 State.reset).config.memWords ≤ (wordAddr (setPc 32768 State.reset) 0).toNat) := by
  refine ⟨⟨⟨rfl, rfl⟩, ?_, ?_, by decide, by decide, rfl⟩, ⟨rfl, rfl⟩, ?_, by decide⟩
  · cases i <;> simp [Instr.length, Instr.format, Format.words]
  · intro j w h; simp at h
  · intro j w h; simp at h

/-- At a `reg` word just below and just above the register words. -/
theorem witness_ChecksWords_reg :
    (load [1, 32767]).active ∧ (Instr.set 0 (.lit 0)).wf = true ∧ PrefixAt (.set 0 (.lit 0)) 1 (load [1, 32767]) ∧
    readWord (load [1, 32767]).mem 1 = 32767 ∧ illegalAt .RV 1 32767 = some .invalidRegister ∧
    illegalAt .RV 1 32776 = some .invalidRegister ∧ illegalAt .RV 1 32775 = none :=
  ⟨⟨rfl, rfl⟩, by decide, prefixAt_of_each (by decide), by decide, by decide, by decide, by decide⟩

/-- At the last `val` word, just above the register words. -/
theorem witness_ChecksWords_val :
    (load [9, 32768, 1, 32776]).active ∧ (Instr.add 0 (.lit 1) (.lit 0)).wf = true ∧
    PrefixAt (.add 0 (.lit 1) (.lit 0)) 3 (load [9, 32768, 1, 32776]) ∧
    readWord (load [9, 32768, 1, 32776]).mem 3 = 32776 ∧ illegalAt .RVV 3 32776 = some .valueOutOfRange ∧
    illegalAt .RVV 3 32775 = none :=
  ⟨⟨rfl, rfl⟩, by decide, prefixAt_of_each (by decide), by decide, by decide, by decide⟩

/-- A core whose last memory word is `w`, about to fetch it. -/
def atTop (w : Word) : State := { State.reset with mem := storeWords [] 32767 [w], pc := 32767 }

/-- An operand word outside memory. -/
theorem witness_FirstOffendingWordDecides :
    (atTop 6).active ∧ (Instr.jmp (.lit 0)).wf = true ∧ 1 < (Instr.jmp (.lit 0)).length ∧
    PrefixAt (.jmp (.lit 0)) 1 (atTop 6) ∧ (atTop 6).config.memWords ≤ (wordAddr (atTop 6) 1).toNat :=
  ⟨⟨rfl, rfl⟩, by decide, by decide, prefixAt_of_each (by decide), by decide⟩

theorem witness_EveryStepAnswersNext :
    ((next (load [0])).rst = false ∧ (next (load [0])).runState ≠ .running) ∧
    ((load [18]).active ∧ step (load [18]) = .next (next (load [18])) ∧ (next (load [18])).runState = .crashed) :=
  ⟨⟨rfl, by decide⟩, ⟨rfl, rfl⟩, rfl, rfl⟩

theorem witness_OnlyResetLeavesTerminalState :
    (next (load [0])).rst = false ∧ (next (load [0])).runState = .halted ∧ (next (load [18])).runState = .crashed ∧
    (∀ m ∈ [Move.core, Move.supply 5, Move.startRun (some [0, 0]) [] true .ready], m ≠ Move.assertReset) := by decide

theorem witness_SuccessOnlyByHalt :
    (load [0]).active ∧ step (load [0]) = .next (next (load [0])) ∧ hostReport (next (load [0])) = some .success ∧
    decodeAt (load [0]) = .instr .halt [0, 0, 0] 1 :=
  ⟨⟨rfl, rfl⟩, rfl, by decide, by decide⟩

/-- A crash at decode and a crash of the instruction's own. -/
theorem witness_CrashIsPrecise :
    (load [1, 5, 7]).active ∧ step (load [1, 5, 7]) = .next (next (load [1, 5, 7])) ∧
    (next (load [1, 5, 7])).runState = .crashed ∧ step (load [18]) = .next (next (load [18])) ∧
    (next (load [18])).runState = .crashed :=
  ⟨⟨rfl, rfl⟩, rfl, by decide, rfl, by decide⟩

theorem witness_LiteralExpectedNeverRaised :
    (load [22]).active ∧ step (load [22]) = .next (next (load [22])) ∧ (next (load [22])).runState = .crashed :=
  ⟨⟨rfl, rfl⟩, rfl, by decide⟩

theorem witness_AssertedResetHoldsCore : ({ next (load [18]) with rst := true } : State).rst = true := rfl

/-- An image of two words: its last byte and word; in a memory of one word, the file that just fits (two bytes, admitted) and those
that just do not (three and four bytes, refused), an odd file that would fit, no file; and a move that releases `rst`. -/
theorem witness_BootLoadsImageAndZeros :
    (([7, 0, 7, 128] : List Byte).length % 2 = 0 ∧ ([7, 0, 7, 128] : List Byte).length ≤ 2 * State.reset.config.memWords ∧
      boot (some [7, 0, 7, 128]) [] false .ready State.reset = load [7, 32775] ∧
      ([7, 0, 7, 128] : List Byte)[3]? = some 128 ∧ (wordsOfBytes [7, 0, 7, 128])[1]? = some 32775) ∧
    (([7, 128] : List Byte).length % 2 = 0 ∧ ([7, 128] : List Byte).length ≤ 2 * oneWord.config.memWords ∧
      (boot (some [7, 128]) [] false .ready oneWord).rst = false ∧
      startReport oneWord.config (some [7, 128]) = none) ∧
    (∀ file ∈ ([none, some [7], some [7, 0, 7], some [7, 0, 7, 128]] : List (Option (List Byte))),
      (∀ bs, file = some bs → bs.length % 2 = 1 ∨ 2 * oneWord.config.memWords < bs.length) ∧
      (boot file [] false .ready oneWord).rst = true) ∧
    (applyMove .assertReset (load [18])).rst = true ∧
    (applyMove (.startRun (some []) [] true .ready) (applyMove .assertReset (load [18]))).rst = false := by
  refine ⟨by decide, by decide, ?_, by decide, by decide⟩
  intro file h
  simp only [List.mem_cons, List.not_mem_nil, or_false] at h
  rcases h with rfl | rfl | rfl | rfl <;> refine ⟨?_, by decide⟩ <;> rintro bs ⟨⟩ <;> decide

theorem inv_of_load (ws : List Word) (hw : Memory.wf (load ws).mem) (hb : ∀ c ∈ (load ws).mem, c.1 < 2 * 32768) :
    (load ws).Inv :=
  ⟨rfl, ⟨hw, hb⟩, (fun _ h => nomatch h), ⟨(fun h => nomatch h), fun _ => ⟨rfl, rfl⟩⟩, (fun h => nomatch h)⟩

theorem witness_StepKeepsInvariant : (load [16, 20, 7]).Inv ∧ step (load [16, 20, 7]) = .next (next (load [16, 20, 7])) :=
  ⟨inv_of_load _ (by decide) (by decide), rfl⟩

theorem witness_MovesKeepInvariant :
    (load [18]).Inv ∧ Reaches (load [18]) (applyMoves [.core, .assertReset, .startRun (some [0, 0]) [] true .ready, .core] (load [18])) :=
  ⟨inv_of_load _ (by decide) (by decide), _, rfl⟩

theorem witness_PushAppendsValue :
    State.reset.config.stackDepth ≠ some State.reset.stack.length ∧
    (withDepth 2 (withStack [1] State.reset)).config.stackDepth ≠ some (withDepth 2 (withStack [1] State.reset)).stack.length ∧
    (withDepth 1 (withStack [1] State.reset)).config.stackDepth =
      some (withDepth 1 (withStack [1] State.reset)).stack.length := by decide

theorem witness_PopTakesTop :
    (withStack [3, 7] State.reset).stack = [3] ++ [7] ∧ (withStack [7] State.reset).stack = [] ++ [7] ∧
    State.reset.stack = [] := by decide

theorem witness_PushThenPopReturnsValue :
    (withDepth 1 State.reset).config.stackDepth ≠ some (withDepth 1 State.reset).stack.length := by decide

theorem witness_EqWritesComparison :
    value State.reset (.lit 0) = value State.reset (.reg 0) ∧
    value (writeReg 0 32768 State.reset) (.reg 0) ≠ value (writeReg 0 32768 State.reset) (.lit 0) := by decide

theorem witness_GtWritesComparison :
    (value State.reset (.lit 0)).toNat < (value State.reset (.lit 1)).toNat ∧
    (value State.reset (.lit 7)).toNat ≤ (value State.reset (.lit 7)).toNat := by decide

theorem witness_ModWritesRemainder :
    value State.reset (.lit 1) ≠ 0 ∧ value State.reset (.lit 0) = 0 := by decide

theorem witness_JtJumpsOnNonzero :
    value (writeReg 0 32768 State.reset) (.reg 0) ≠ 0 ∧ value State.reset (.reg 0) = 0 := by decide

theorem witness_JfJumpsOnZero :
    value State.reset (.lit 0) = 0 ∧ value State.reset (.lit 1) ≠ 0 := by decide

theorem witness_CallPushesReturnAddress :
    (withDepth 1 State.reset).config.stackDepth ≠ some (withDepth 1 State.reset).stack.length ∧
    (withDepth 0 State.reset).config.stackDepth = some (withDepth 0 State.reset).stack.length := by decide

theorem witness_RetPopsPc :
    (withStack [9, 5] State.reset).stack = [9] ++ [5] ∧ State.reset.stack = [] := by decide

theorem witness_RetReturnsAfterCall :
    State.reset.config.stackDepth ≠ some State.reset.stack.length ∧
    (next (next (load [17, 3, 0, 21]))).stack = (next (load [17, 3, 0, 21])).stack := by decide

theorem witness_RmemReadsWord :
    (value State.reset (.lit 32767)).toNat < State.reset.config.memWords ∧
    (writeReg 0 32768 State.reset).config.memWords ≤ (value (writeReg 0 32768 State.reset) (.reg 0)).toNat := by decide

theorem witness_WmemWritesWord :
    (value State.reset (.lit 32767)).toNat < State.reset.config.memWords ∧ (0 : Nat) ≠ 2 * 32767 ∧ (0 : Nat) ≠ 2 * 32767 + 1 ∧
    (writeReg 0 65535 State.reset).config.memWords ≤ (value (writeReg 0 65535 State.reset) (.reg 0)).toNat := by decide

theorem witness_WmemThenRmemReturnsValue :
    (value State.reset (.lit 100)).toNat < State.reset.config.memWords := by decide

theorem witness_WrittenWordIsFetchedNext :
    value State.reset (.lit 3) = State.reset.pc + 3 ∧ (value State.reset (.lit 3)).toNat < State.reset.config.memWords := by
  decide

theorem witness_OutEmitsWord :
    State.reset.sink = .ready ∧ (withSink .busy State.reset).sink = .busy ∧ (withSink .failed State.reset).sink = .failed := by
  decide

theorem witness_InReceivesWord :
    (withInput [65] false State.reset).input = 65 :: [] ∧
    ((withInput [] false State.reset).input = [] ∧ (withInput [] false State.reset).inputEnded = false) ∧
    ((withInput [] true State.reset).input = [] ∧ (withInput [] true State.reset).inputEnded = true) := by decide

theorem witness_SuppliedWordLiftsHold :
    (load [20, 32775]).active ∧ InstrAt (.inp 7) (load [20, 32775]) ∧ (load [20, 32775]).input = [] ∧
    (load [20, 32775]).inputEnded = false :=
  ⟨⟨rfl, rfl⟩, prefixAt_of_each (by decide), rfl, rfl⟩

/-- Outside memory; just above the register words; the last literal; the first and the last register word. -/
theorem witness_ReadValueResolvesOnce :
    (setPc 32768 State.reset).config.memWords ≤ (setPc 32768 State.reset).pc.toNat ∧
    (load [32776]).pc.toNat < (load [32776]).config.memWords ∧ readWord (load [32776]).mem 0 = 32776 ∧
    32775 < (32776 : Word).toNat ∧ readWord (load [32767]).mem 0 = 32767 ∧ (32767 : Word).toNat ≤ 32767 ∧
    (32768 : Word).toNat = 32768 + (0 : Reg).val ∧ (32775 : Word).toNat = 32768 + (7 : Reg).val := by decide

theorem witness_ReadOpcodeLiteralAcceptsStrictLiterals :
    (setPc 32768 State.reset).config.memWords ≤ (setPc 32768 State.reset).pc.toNat ∧
    (load [22]).pc.toNat < (load [22]).config.memWords ∧ readWord (load [22]).mem 0 = 22 ∧
    (22 ≤ (22 : Word).toNat ∧ (22 : Word).toNat ≤ 32767) ∧ (22 ≤ (32767 : Word).toNat ∧ (32767 : Word).toNat ≤ 32767) ∧
    ((21 : Word).toNat < 22 ∨ 32767 < (21 : Word).toNat) ∧ ((32768 : Word).toNat < 22 ∨ 32767 < (32768 : Word).toNat) := by
  decide

theorem witness_OnlyTheTargetRegisterChanges :
    exec (.set 2 (.lit 5)) State.reset = .next (writeReg 2 5 (advance 3 State.reset)) ∧
    readReg (writeReg 2 5 (advance 3 State.reset)) 2 ≠ readReg State.reset 2 :=
  ⟨rfl, by decide⟩

theorem witness_StackIsolated :
    usesStack (.jmp (.lit 5)) = false ∧ exec (.jmp (.lit 5)) State.reset = .next (setPc 5 State.reset) :=
  ⟨rfl, rfl⟩

theorem witness_MemoryChangedByWmemAlone :
    (load [16, 20, 7]).rst = false ∧
    readByte (applyMove .core (load [16, 20, 7])).mem 40 ≠ readByte (load [16, 20, 7]).mem 40 := by decide

theorem witness_OutputGrowsByOutAlone :
    (load [19, 65]).rst = false ∧ step (load [19, 65]) = .next (next (load [19, 65])) ∧
    (next (load [19, 65])).output ≠ (load [19, 65]).output :=
  ⟨rfl, rfl, by decide⟩

theorem witness_InputTakenByInAlone :
    (withInput [65] false (load [20, 32768])).rst = false ∧
    step (withInput [65] false (load [20, 32768])) = .next (next (withInput [65] false (load [20, 32768]))) ∧
    (next (withInput [65] false (load [20, 32768]))).input ≠ (withInput [65] false (load [20, 32768])).input :=
  ⟨rfl, rfl, by decide⟩

theorem witness_PcAdvancesByLength :
    exec .noop State.reset = .next (advance 1 State.reset) ∧ transfersControl .noop = false ∧ ¬ holds .noop State.reset := by
  refine ⟨rfl, rfl, ?_⟩
  rintro (⟨_, h, _⟩ | ⟨_, h, _⟩) <;> cases h

/-- Each premise at its boundary: an executed `in` that receives 32767, an `rmem` that reads it, a `call` that pushes it. -/
theorem witness_FifteenBitClosure :
    (FifteenBit (withInput [32767] false (load [20, 32768])) ∧
      FifteenBitPremises .core (withInput [32767] false (load [20, 32768]))) ∧
    (FifteenBit (load [15, 32768, 3, 32767]) ∧ FifteenBitPremises .core (load [15, 32768, 3, 32767])) ∧
    (FifteenBit (fetching [17, 0] 32765) ∧ FifteenBitPremises .core (fetching [17, 0] 32765)) := by
  have hi : decodeAt (withInput [32767] false (load [20, 32768])) = .instr (.inp 0) [0, 0] 2 := by decide
  have hr : decodeAt (load [15, 32768, 3, 32767]) = .instr (.rmem 0 (.lit 3)) [32767] 3 := by decide
  have hc : decodeAt (fetching [17, 0] 32765) = .instr (.call (.lit 0)) [0] 2 := by decide
  refine ⟨⟨⟨by decide, fun _ h => nomatch h⟩, fun _ _ => ⟨?_, ?_, ?_⟩⟩, ⟨⟨by decide, fun _ h => nomatch h⟩, fun _ _ => ⟨?_, ?_, ?_⟩⟩,
    ⟨by decide, fun _ h => nomatch h⟩, fun _ _ => ⟨?_, ?_, ?_⟩⟩
  · intro d a rest n h; rw [hi] at h; cases h
  · intro d w ws rest n _ h; injection h with h; subst h; decide
  · intro t rest n h; rw [hi] at h; cases h
  · intro d a rest n h _; rw [hr] at h; cases h; decide
  · intro d w ws rest n h; rw [hr] at h; cases h
  · intro t rest n h; rw [hr] at h; cases h
  · intro d a rest n h; rw [hc] at h; cases h
  · intro d w ws rest n h; rw [hc] at h; cases h
  · intro t rest n h _; decide

end Sys2Proof.Tests
end

/-! ### What the decoder reads is a well-formed instruction (R62, R63) -/

namespace Sys2Proof

theorem formR_eq_instr {f : Reg → Instr} {ws rest : List Word} {n m : Nat} {i : Instr}
    (h : formR f ws n = .instr i rest m) : ∃ d, ws = regWord d :: rest ∧ i = f d ∧ m = n + 1 := by
  unfold formR at h
  rcases takeReg_cases ws n fun d ws n => .instr (f d) ws n with ⟨e, k, hrej⟩ | ⟨d, tail, hws, htake⟩
  · rw [hrej] at h; cases h
  · rw [htake] at h; cases h
    exact ⟨d, hws, rfl, rfl⟩

theorem formV_eq_instr {f : Operand → Instr} {ws rest : List Word} {n m : Nat} {i : Instr}
    (h : formV f ws n = .instr i rest m) : ∃ a, a.wf = true ∧ ws = a.word :: rest ∧ i = f a ∧ m = n + 1 := by
  unfold formV at h
  rcases takeVal_cases ws n fun a ws n => .instr (f a) ws n with ⟨e, k, hrej⟩ | ⟨a, tail, hwf, hws, htake⟩
  · rw [hrej] at h; cases h
  · rw [htake] at h; cases h
    exact ⟨a, hwf, hws, rfl, rfl⟩

theorem formRV_eq_instr {f : Reg → Operand → Instr} {ws rest : List Word} {n m : Nat} {i : Instr}
    (h : formRV f ws n = .instr i rest m) :
    ∃ d a, a.wf = true ∧ ws = regWord d :: a.word :: rest ∧ i = f d a ∧ m = n + 2 := by
  unfold formRV at h
  rcases takeReg_cases ws n fun d ws n => formV (f d) ws n with ⟨e, k, hrej⟩ | ⟨d, tail, rfl, htake⟩
  · rw [hrej] at h; cases h
  · rw [htake] at h
    obtain ⟨a, hwf, rfl, rfl, rfl⟩ := formV_eq_instr h
    exact ⟨d, a, hwf, rfl, rfl, rfl⟩

theorem formVV_eq_instr {f : Operand → Operand → Instr} {ws rest : List Word} {n m : Nat} {i : Instr}
    (h : formVV f ws n = .instr i rest m) :
    ∃ a b, (a.wf && b.wf) = true ∧ ws = a.word :: b.word :: rest ∧ i = f a b ∧ m = n + 2 := by
  unfold formVV at h
  rcases takeVal_cases ws n fun a ws n => formV (f a) ws n with ⟨e, k, hrej⟩ | ⟨a, tail, ha, rfl, htake⟩
  · rw [hrej] at h; cases h
  · rw [htake] at h
    obtain ⟨b, hb, rfl, rfl, rfl⟩ := formV_eq_instr h
    exact ⟨a, b, by simp [ha, hb], rfl, rfl, rfl⟩

theorem formRVV_eq_instr {f : Reg → Operand → Operand → Instr} {ws rest : List Word} {n m : Nat} {i : Instr}
    (h : formRVV f ws n = .instr i rest m) :
    ∃ d a b, (a.wf && b.wf) = true ∧ ws = regWord d :: a.word :: b.word :: rest ∧ i = f d a b ∧ m = n + 3 := by
  unfold formRVV at h
  rcases takeReg_cases ws n fun d ws n => formVV (f d) ws n with ⟨e, k, hrej⟩ | ⟨d, tail, rfl, htake⟩
  · rw [hrej] at h; cases h
  · rw [htake] at h
    obtain ⟨a, b, hwf, rfl, rfl, rfl⟩ := formVV_eq_instr h
    exact ⟨d, a, b, hwf, rfl, rfl, rfl⟩

/-- R64: the operand readers of an opcode word, when they do not reject, took the operand words of a well-formed instruction
with that opcode. -/
theorem decodeOperands_eq_instr {op : Word} {ws rest : List Word} {m : Nat} {i : Instr}
    (h : decodeOperands op ws 1 = .instr i rest m) :
    i.wf = true ∧ op = i.opcode ∧ ws = i.operandWords ++ rest ∧ m = i.length := by
  unfold decodeOperands at h
  split at h
  case h_1 hop | h_19 hop | h_22 hop => cases h; exact ⟨rfl, BitVec.eq_of_toNat_eq hop, rfl, rfl⟩
  case h_4 hop | h_21 hop =>
    obtain ⟨d, rfl, rfl, rfl⟩ := formR_eq_instr h
    exact ⟨rfl, BitVec.eq_of_toNat_eq hop, rfl, rfl⟩
  case h_3 hop | h_7 hop | h_18 hop | h_20 hop =>
    obtain ⟨a, ha, rfl, rfl, rfl⟩ := formV_eq_instr h
    exact ⟨ha, BitVec.eq_of_toNat_eq hop, rfl, rfl⟩
  case h_2 hop | h_15 hop | h_16 hop =>
    obtain ⟨d, a, ha, rfl, rfl, rfl⟩ := formRV_eq_instr h
    exact ⟨ha, BitVec.eq_of_toNat_eq hop, rfl, rfl⟩
  case h_8 hop | h_9 hop | h_17 hop =>
    obtain ⟨a, b, hab, rfl, rfl, rfl⟩ := formVV_eq_instr h
    exact ⟨hab, BitVec.eq_of_toNat_eq hop, rfl, rfl⟩
  case h_5 hop | h_6 hop | h_10 hop | h_11 hop | h_12 hop | h_13 hop | h_14 hop =>
    obtain ⟨d, a, b, hab, rfl, rfl, rfl⟩ := formRVV_eq_instr h
    exact ⟨hab, BitVec.eq_of_toNat_eq hop, rfl, rfl⟩
  case h_23 => cases h

/-- R60, R62 to R65: words that decode begin with the encoding of the well-formed instruction read, whose length is counted. -/
theorem decodeWords_eq_instr {ws rest : List Word} {n : Nat} {i : Instr} (h : decodeWords ws = .instr i rest n) :
    i.wf = true ∧ ws = encode i ++ rest ∧ n = i.length := by
  cases ws with
  | nil => cases h
  | cons op ws =>
    obtain ⟨hwf, rfl, rfl, hn⟩ := decodeOperands_eq_instr h
    exact ⟨hwf, rfl, hn⟩

end Sys2Proof

/-! ### What executing an instruction can do, once -/

namespace Sys2Proof.Machine

/-- R26, R100: the register write of `set` and of the ALU's instructions, if it is reached. -/
def computed (s : State) : Instr → Option (Reg × Word)
  | .set d v => some (d, value s v)
  | .eq d a b => some (d, aluEq (value s a) (value s b))
  | .gt d a b => some (d, aluGt (value s a) (value s b))
  | .add d a b => some (d, aluAdd (value s a) (value s b))
  | .mult d a b => some (d, aluMult (value s a) (value s b))
  | .mod d a b => if value s b = 0 then none else some (d, aluMod (value s a) (value s b))
  | .and d a b => some (d, aluAnd (value s a) (value s b))
  | .or d a b => some (d, aluOr (value s a) (value s b))
  | .not d a => some (d, aluNot (value s a))
  | _ => none

/-- R131 to R133, R136: where `pc` goes in an instruction that does nothing else. -/
def nextPc (s : State) : Instr → Option Word
  | .jmp t => some (value s t)
  | .jt c t => some (if conditionHolds (value s c) then value s t else wordAddr s 3)
  | .jf c t => some (if conditionHolds (value s c) then wordAddr s 3 else value s t)
  | .noop => some (wordAddr s 1)
  | _ => none

/-- The states an instruction can lead to (R100 to R164): its effect, a hold, or a crash past its words. -/
inductive Effect (s : State) : Instr → State → Prop
  | halt : Effect s .halt { advance 1 s with runState := .halted }
  | write {i d v} (h : computed s i = some (d, v)) : Effect s i (writeReg d v (advance i.length s))
  | move {i a} (h : nextPc s i = some a) : Effect s i (setPc a s)
  | push (v) (h : stackFull s = false) :
      Effect s (.push v) { advance 2 s with stack := s.stack ++ [value s v] }
  | call (a) (h : stackFull s = false) :
      Effect s (.call a) (setPc (value s a) { s with stack := s.stack ++ [wordAddr s 2] })
  | pop (d) {rest v} (h : s.stack = rest ++ [v]) :
      Effect s (.pop d) (writeReg d v { advance 2 s with stack := rest })
  | ret {rest v} (h : s.stack = rest ++ [v]) : Effect s .ret (setPc v { s with stack := rest })
  | rmem (d m) (h : (value s m).toNat < s.config.memWords) :
      Effect s (.rmem d m) (writeReg d (readWord s.mem (value s m).toNat) (advance 3 s))
  | wmem (m v) (h : (value s m).toNat < s.config.memWords) :
      Effect s (.wmem m v) { advance 3 s with mem := writeWord s.mem (value s m).toNat (value s v) }
  | out (c) (h : s.sink = .ready) : Effect s (.out c) { advance 2 s with output := s.output ++ [value s c] }
  | inp (d) {c rest} (h : s.input = c :: rest) :
      Effect s (.inp d) (writeReg d c { advance 2 s with input := rest, inputPos := s.inputPos + 1 })
  | hold {i} (h : holds i s) : Effect s i s
  | crash {i e} (info) (h : FatalCondition.latched e) : Effect s i (raise e info (advance i.length s))

/-- Every instruction answers a next state, one of those of `Effect`. -/
theorem exec_effect (i : Instr) (s : State) : ∃ t, exec i s = .next t ∧ Effect s i t := by
  cases i with
  | halt => exact ⟨_, rfl, .halt⟩
  | set | eq | gt | add | mult | and | or | not => exact ⟨_, rfl, .write rfl⟩
  | jmp | noop => exact ⟨_, rfl, .move rfl⟩
  | jt c t =>
    refine ⟨_, rfl, ?_⟩
    unfold effectJt
    split
    · next hc => exact .move (by simp [nextPc, hc])
    · next hc => exact .move (by simp [nextPc, hc]; rfl)
  | jf c t =>
    refine ⟨_, rfl, ?_⟩
    unfold effectJf
    split
    · next hc => exact .move (by simp [nextPc, hc]; rfl)
    · next hc => exact .move (by simp [nextPc, hc])
  | mod d a b =>
    refine ⟨_, rfl, ?_⟩
    unfold effectMod
    split
    · exact .crash _ ⟨nofun, nofun⟩
    · next hb => exact .write (if_neg hb)
  | push v =>
    refine ⟨_, rfl, ?_⟩
    rcases push_cases (value s v) (advance 2 s) fun s => s with ⟨-, h⟩ | ⟨hroom, h⟩
    all_goals rw [effectPush, h]
    · exact .crash _ ⟨nofun, nofun⟩
    · exact .push v hroom
  | call a =>
    refine ⟨_, rfl, ?_⟩
    rcases push_cases (advance 2 s).pc (advance 2 s) fun u => setPc (value s a) u with ⟨-, h⟩ | ⟨hroom, h⟩
    all_goals rw [effectCall, h]
    · exact .crash _ ⟨nofun, nofun⟩
    · exact .call a hroom
  | pop d =>
    refine ⟨_, rfl, ?_⟩
    rcases pop_cases (advance 2 s) fun v u => writeReg d v u with ⟨-, h⟩ | ⟨rest, v, hs, h⟩
    all_goals rw [effectPop, h]
    · exact .crash _ ⟨nofun, nofun⟩
    · exact .pop d hs
  | ret =>
    refine ⟨_, rfl, ?_⟩
    rcases pop_cases (advance 1 s) fun v u => setPc v u with ⟨-, h⟩ | ⟨rest, v, hs, h⟩
    all_goals rw [effectRet, h]
    · exact .crash _ ⟨nofun, nofun⟩
    · exact .ret hs
  | rmem d m =>
    refine ⟨_, rfl, ?_⟩
    rcases memRead_cases (value s m) (advance 3 s) fun v => writeReg d v (advance 3 s) with ⟨-, h⟩ | ⟨hin, h⟩
    all_goals rw [effectRmem, h]
    · exact .crash _ ⟨nofun, nofun⟩
    · exact .rmem d m hin
  | wmem m v =>
    refine ⟨_, rfl, ?_⟩
    rcases memWrite_cases (value s m) (value s v) (advance 3 s) with ⟨-, h⟩ | ⟨hin, h⟩
    all_goals rw [effectWmem, h]
    · exact .crash _ ⟨nofun, nofun⟩
    · exact .wmem m v hin
  | out c =>
    refine ⟨_, rfl, ?_⟩
    rcases emit_cases s (value s c) (advance 2 s) with ⟨hk, h⟩ | ⟨hk, h⟩ | ⟨-, h⟩
    all_goals rw [effectOut, h]
    · exact .out c hk
    · exact .hold (.inl ⟨c, rfl, hk⟩)
    · exact .crash _ ⟨nofun, nofun⟩
  | inp d =>
    refine ⟨_, rfl, ?_⟩
    rcases receive_cases s (advance 2 s) fun c u => writeReg d c u with
      ⟨c, rest, hi, h⟩ | ⟨-, -, h⟩ | ⟨hi, he, h⟩
    all_goals rw [effectIn, h]
    · exact .inp d hi
    · exact .crash _ ⟨nofun, nofun⟩
    · exact .hold (.inr ⟨d, rfl, hi, he⟩)

theorem effect_of_exec {i : Instr} {s t : State} (h : exec i s = .next t) : Effect s i t := by
  obtain ⟨u, hu, he⟩ := exec_effect i s
  rw [hu] at h; cases h
  exact he

/-! ### What each part of the state can become -/

theorem writeTarget_of_computed {s : State} {i : Instr} {d : Reg} {v : Word} (h : computed s i = some (d, v)) :
    writeTarget i = some d := by
  cases i <;> simp_all [computed, writeTarget]

/-- R12: a register that is not the write target reads as before. -/
theorem effect_readReg {s t : State} {i : Instr} (h : Effect s i t) {r : Reg} (hr : writeTarget i ≠ some r) :
    readReg t r = readReg s r := by
  have hne {d : Reg} (hd : writeTarget i = some d) : r ≠ d := fun e => hr (e ▸ hd)
  cases h with
  | write h => exact readReg_writeReg_ne (hne (writeTarget_of_computed h)) ..
  | pop | rmem | inp => exact readReg_writeReg_ne (hne rfl) ..
  | halt | move | push | call | ret | wmem | out | hold | crash => rfl

/-- R5, R30: no instruction changes the build or the reset input. -/
theorem effect_build {s t : State} {i : Instr} (h : Effect s i t) : SameBuild s t := by
  cases h <;> exact ⟨rfl, rfl⟩

/-- R14: an instruction that is not one of the stack's leaves it. -/
theorem effect_stack {s t : State} {i : Instr} (h : Effect s i t) (hi : usesStack i = false) : t.stack = s.stack := by
  cases h with
  | push | call | pop | ret => cases hi
  | halt | write | move | rmem | wmem | out | inp | hold | crash => rfl

/-- R20: the output stream gains at most the value of an `out`. -/
theorem effect_output {s t : State} {i : Instr} (h : Effect s i t) :
    t.output = s.output ∨ ∃ c, i = .out c ∧ t.output = s.output ++ [value s c] := by
  cases h with
  | out c => exact .inr ⟨c, rfl, rfl⟩
  | halt | write | move | push | call | pop | ret | rmem | wmem | inp | hold | crash => exact .inl rfl

/-- R19: the input stream loses at most its first word, to the destination of an `in`. -/
theorem effect_input {s t : State} {i : Instr} (h : Effect s i t) :
    (t.input = s.input ∧ t.inputPos = s.inputPos) ∨
      ∃ d c rest, i = .inp d ∧ s.input = c :: rest ∧ t.input = rest ∧ t.inputPos = s.inputPos + 1 ∧
        readReg t d = c := by
  cases h with
  | inp d hi => exact .inr ⟨d, _, _, rfl, hi, rfl, rfl, readReg_writeReg_same ..⟩
  | halt | write | move | push | call | pop | ret | rmem | wmem | out | hold | crash => exact .inl ⟨rfl, rfl⟩

/-- R13, R89: `pc` ends past the words of an instruction that neither transfers control nor holds. -/
theorem effect_pc {s t : State} {i : Instr} (h : Effect s i t) (hi : transfersControl i = false) (hh : ¬ holds i s) :
    t.pc = wordAddr s i.length := by
  cases h with
  | move h =>
    cases i with
    | noop => exact Option.some.inj h.symm
    | jmp | jt | jf => cases hi
    | _ => cases h
  | call | ret => cases hi
  | hold h => exact absurd h hh
  | halt | write | push | pop | rmem | wmem | out | inp | crash => rfl

/-! ### What one step can do, once -/

/-- R200. -/
theorem step_of_rst {s : State} (h : s.rst = true) : step s = .next (applyReset s) := by
  simp [step, h]

/-- R17. -/
theorem step_of_terminal {s : State} (hr : s.rst = false) (hs : s.runState ≠ .running) : step s = .next s := by
  unfold step
  cases h : s.runState <;> simp_all

/-- R86. -/
theorem step_of_active {s : State} (h : s.active) : step s = runDecoded (decodeAt s) s := by
  obtain ⟨hs, hr⟩ := h
  simp [step, hs, hr]

/-- R86, R17: out of reset a step leaves a terminal state, executes the decoded instruction, or crashes past the words of a
rejected one. -/
theorem step_cases {s t : State} (hr : s.rst = false) (h : step s = .next t) :
    (s.runState ≠ .running ∧ t = s) ∨
    (s.active ∧ ∃ i rest n, decodeAt s = .instr i rest n ∧ Effect s i t) ∨
    (s.active ∧ ∃ e n, decodeAt s = .rejected e n ∧
      ∃ f info, FatalCondition.latched f ∧ t = raise f info (advance n s)) := by
  by_cases hs : s.runState = .running
  · rw [step_of_active ⟨hs, hr⟩] at h
    cases hd : decodeAt s with
    | instr i rest n =>
      rw [hd] at h
      exact .inr (.inl ⟨⟨hs, hr⟩, i, rest, n, rfl, effect_of_exec h⟩)
    | rejected e n =>
      obtain ⟨f, info, hf, hcrash⟩ := crashOnReject_eq_raise e n s
      rw [hd, runDecoded, hcrash] at h
      cases h
      exact .inr (.inr ⟨⟨hs, hr⟩, e, n, rfl, f, info, hf, rfl⟩)
  · rw [step_of_terminal hr hs] at h
    cases h
    exact .inl ⟨hs, rfl⟩

end Sys2Proof.Machine

/-! ### The invariant under a step -/

namespace Sys2Proof.Machine

theorem inv_applyReset {s : State} (h : s.Inv) : (applyReset s).Inv where
  config := h.config
  memory := h.memory
  stack := fun _ _ => Nat.zero_le _
  status := ⟨nofun, fun _ => ⟨rfl, rfl⟩⟩
  reset := fun _ => rfl

/-- R18, R172: a crash by one of the core's own conditions is a coherent status. -/
theorem statusCoherent_raise {e : FatalCondition} (h : e.latched) (info : Word) (s : State) :
    statusCoherent (raise e info s) :=
  ⟨fun _ => ⟨e, h, rfl⟩, fun hn => absurd rfl hn⟩

theorem inv_raise_advance {s : State} (h : s.Inv) (hr : s.rst = false) {e : FatalCondition} (he : e.latched)
    (info : Word) (n : Nat) : (raise e info (advance n s)).Inv where
  config := h.config
  memory := h.memory
  stack := h.stack
  status := statusCoherent_raise he info _
  reset := fun ht => absurd (ht.symm.trans hr) (by decide)

/-- R47: a word written inside memory keeps the byte store legal. -/
theorem effect_memoryLegal {s t : State} {i : Instr} (h : Effect s i t) (hm : memoryLegal s) : memoryLegal t := by
  cases h with
  | wmem m v hin => exact ⟨wf_writeWord hm.1 _ _, bounded_writeWord hm.2 hin _⟩
  | halt | write | move | push | call | pop | ret | rmem | out | inp | hold | crash => exact hm

/-- R15: a stack that is not full has room for one more entry. -/
theorem length_append_le_depth {s : State} (hs : stackWithinDepth s) (hroom : stackFull s = false) (v : Word) {d : Nat}
    (hd : s.config.stackDepth = some d) : (s.stack ++ [v]).length ≤ d := by
  have hle := hs d hd
  have hne : s.stack.length ≠ d := fun e => by simp [(stackFull_iff s).mpr (e ▸ hd)] at hroom
  simp only [List.length_append, List.length_singleton]
  omega

theorem effect_stackWithinDepth {s t : State} {i : Instr} (h : Effect s i t) (hs : stackWithinDepth s) :
    stackWithinDepth t := by
  cases h with
  | push | call => exact fun d hd => length_append_le_depth hs ‹_› _ hd
  | pop _ hst | ret hst =>
    intro d hd
    have hle := hs d hd
    simp only [hst, List.length_append] at hle
    exact (Nat.le_add_right _ _).trans hle
  | halt | write | move | rmem | wmem | out | inp | hold | crash => exact hs

theorem effect_statusCoherent {s t : State} {i : Instr} (h : Effect s i t) (ha : s.active) (hc : statusCoherent s) :
    statusCoherent t := by
  cases h with
  | halt => exact ⟨nofun, fun _ => hc.2 (by simp [ha.1])⟩
  | crash info he => exact statusCoherent_raise he info _
  | write | move | push | call | pop | ret | rmem | wmem | out | inp | hold => exact hc

theorem inv_of_effect {s t : State} {i : Instr} (h : Effect s i t) (ha : s.active) (hI : s.Inv) : t.Inv := by
  obtain ⟨hconfig, hrst⟩ := effect_build h
  exact
    { config := hconfig ▸ hI.config
      memory := effect_memoryLegal h hI.memory
      stack := effect_stackWithinDepth h hI.stack
      status := effect_statusCoherent h ha hI.status
      reset := fun ht => absurd (ht.symm.trans (hrst.trans ha.2)) (by decide) }

/-- Settles O21, by the three ways a step out of reset can go, and reset itself. -/
theorem stepKeepsInvariant : Obligations.StepKeepsInvariant := by
  intro s t hI h
  cases hr : s.rst with
  | true =>
    rw [step_of_rst hr] at h
    cases h
    exact inv_applyReset hI
  | false =>
    rcases step_cases hr h with ⟨-, rfl⟩ | ⟨ha, i, rest, n, -, he⟩ | ⟨-, e, n, -, f, info, hf, rfl⟩
    · exact hI
    · exact inv_of_effect he ha hI
    · exact inv_raise_advance hI hr hf info n

/-- Settles O20, field by field. -/
theorem resetMeetsInvariant : Obligations.ResetMeetsInvariant where
  config := by decide
  memory := ⟨⟨.nil, nofun⟩, nofun⟩
  stack := nofun
  status := ⟨nofun, fun _ => ⟨rfl, rfl⟩⟩
  reset := nofun

/-! ### Fifteen-bit closure (R32) -/

theorem value_le_of_fifteenBit {s : State} (h : FifteenBit s) {o : Operand} (ho : o.wf = true) :
    (value s o).toNat ≤ 32767 := by
  cases o with
  | lit v => simpa [Operand.wf] using ho
  | reg r => exact h.1 r

theorem conditionWord_le (b : Bool) : (conditionWord b).toNat ≤ 32767 := by cases b <;> decide

/-- R113, R114: a result reduced by the modulus has 15 bits. -/
theorem mod_modulus_le (n : Nat) : (BitVec.ofNat 16 (n % modulus)).toNat ≤ 32767 := by
  simp only [BitVec.toNat_ofNat, modulus]
  omega

theorem aluMod_le {a : Word} (ha : a.toNat ≤ 32767) (b : Word) : (aluMod a b).toNat ≤ 32767 := by
  rw [aluMod, BitVec.toNat_ofNat]
  exact (Nat.mod_le _ _).trans ((Nat.mod_le _ _).trans ha)

theorem aluAnd_le {a : Word} (ha : a.toNat ≤ 32767) (b : Word) : (aluAnd a b).toNat ≤ 32767 := by
  rw [aluAnd, BitVec.toNat_and]
  exact Nat.and_le_left.trans ha

theorem aluOr_le {a b : Word} (ha : a.toNat ≤ 32767) (hb : b.toNat ≤ 32767) : (aluOr a b).toNat ≤ 32767 := by
  rw [aluOr, BitVec.toNat_or]
  exact Nat.le_of_lt_succ (Nat.or_lt_two_pow (n := 15) (Nat.lt_succ_of_le ha) (Nat.lt_succ_of_le hb))

theorem aluNot_le (a : Word) : (aluNot a).toNat ≤ 32767 := by
  rw [aluNot, BitVec.toNat_and]
  exact Nat.and_le_right

/-- R32: from 15-bit registers `set` and the ALU compute 15-bit words. -/
theorem computed_le {s : State} {i : Instr} {d : Reg} {v : Word} (hs : FifteenBit s) (hi : i.wf = true)
    (h : computed s i = some (d, v)) : v.toNat ≤ 32767 := by
  have both {a b : Operand} (hab : (a.wf && b.wf) = true) : (value s a).toNat ≤ 32767 ∧ (value s b).toNat ≤ 32767 := by
    simp only [Bool.and_eq_true] at hab
    exact ⟨value_le_of_fifteenBit hs hab.1, value_le_of_fifteenBit hs hab.2⟩
  cases i with
  | set => cases h; exact value_le_of_fifteenBit hs hi
  | eq | gt => cases h; exact conditionWord_le _
  | add | mult => cases h; exact mod_modulus_le _
  | mod d a b =>
    simp only [computed] at h
    split at h
    · cases h
    · cases h; exact aluMod_le (both hi).1 _
  | and => cases h; exact aluAnd_le (both hi).1 _
  | or => cases h; exact aluOr_le (both hi).1 (both hi).2
  | not => cases h; exact aluNot_le _
  | _ => cases h

theorem fifteenBit_writeReg {s : State} (h : FifteenBit s) {v : Word} (hv : v.toNat ≤ 32767) (d : Reg) :
    FifteenBit (writeReg d v s) := by
  refine ⟨fun r => ?_, h.2⟩
  by_cases hr : r = d
  · rwa [hr, readReg_writeReg_same]
  · rw [readReg_writeReg_ne hr]; exact h.1 r

theorem fifteenBit_applyReset (s : State) : FifteenBit (applyReset s) :=
  ⟨fun r => by simp [readReg_applyReset], nofun⟩

/-- R32: under the premises, executing the decoded instruction keeps every register and stack entry to 15 bits. -/
theorem fifteenBit_of_effect {s t : State} {i : Instr} {rest : List Word} {n : Nat} (h : Effect s i t)
    (ha : s.active) (hd : decodeAt s = .instr i rest n) (hs : FifteenBit s) (hp : FifteenBitPremises .core s) :
    FifteenBit t := by
  obtain ⟨hrmem, hinp, hcall⟩ := hp rfl ha
  obtain ⟨hwf, -, -⟩ := decodeWords_eq_instr hd
  cases h with
  | write hc => exact fifteenBit_writeReg (s := advance _ s) hs (computed_le hs hwf hc) _
  | push v => exact ⟨hs.1, List.forall_mem_append.mpr
      ⟨hs.2, List.forall_mem_singleton.mpr (value_le_of_fifteenBit hs hwf)⟩⟩
  | call a hroom =>
    have hne : s.config.stackDepth ≠ some s.stack.length := fun e => by simp [(stackFull_iff s).mpr e] at hroom
    exact ⟨hs.1, List.forall_mem_append.mpr ⟨hs.2, List.forall_mem_singleton.mpr (hcall a rest n hd hne)⟩⟩
  | @pop d st v hst =>
    obtain ⟨hall, hv⟩ := List.forall_mem_append.mp (hst ▸ hs.2)
    exact fifteenBit_writeReg (s := { advance 2 s with stack := st }) ⟨hs.1, hall⟩ (hv v (by simp)) d
  | ret hst => exact ⟨hs.1, (List.forall_mem_append.mp (hst ▸ hs.2)).1⟩
  | rmem d m hin => exact fifteenBit_writeReg (s := advance 3 s) hs (hrmem d m rest n hd hin) d
  | @inp d c ws hi =>
    exact fifteenBit_writeReg (s := { advance 2 s with input := ws, inputPos := s.inputPos + 1 }) hs
      (hinp d c ws rest n hd hi) d
  | halt | move | wmem | out | hold | crash => exact hs

theorem fifteenBit_of_step {s t : State} (h : step s = .next t) (hs : FifteenBit s) (hp : FifteenBitPremises .core s) :
    FifteenBit t := by
  cases hr : s.rst with
  | true =>
    rw [step_of_rst hr] at h
    cases h
    exact fifteenBit_applyReset s
  | false =>
    rcases step_cases hr h with ⟨-, rfl⟩ | ⟨ha, i, rest, n, hd, he⟩ | ⟨-, e, n, -, f, info, -, rfl⟩
    · exact hs
    · exact fifteenBit_of_effect he ha hd hs hp
    · exact hs

theorem fifteenBit_applyMove {m : Move} {s : State} (hs : FifteenBit s) (hp : FifteenBitPremises m s) :
    FifteenBit (applyMove m s) := by
  cases m with
  | core =>
    simp only [applyMove]
    split
    · next t h => exact fifteenBit_of_step h hs hp
    · exact hs
    · exact hs
  | assertReset => exact fifteenBit_applyReset _
  | startRun file input ended sink =>
    rcases startRun_cases file input ended sink s with ⟨bs, -, -, -, -, h⟩ | ⟨h, -⟩
    all_goals rw [applyMove, h]; exact hs
  | supply w =>
    simp only [applyMove]
    split <;> exact hs
  | endInput | failInput | sinkTo => exact hs

/-- Settles O60: reset, every move, and the operands, each by its own lemma. -/
theorem fifteenBitClosure : Obligations.FifteenBitClosure := by
  refine ⟨?_, ?_, ?_⟩
  · rintro s t rfl
    exact fifteenBit_applyReset _
  · rintro m s t hs hp rfl
    exact fifteenBit_applyMove hs hp
  · exact fun s o hs ho => value_le_of_fifteenBit hs ho

end Sys2Proof.Machine

/-! ### Whole-machine rules -/

namespace Sys2Proof.Machine

/-- Settles O54, since a register that is not the write target reads as before. -/
theorem onlyTheTargetRegisterChanges : Obligations.OnlyTheTargetRegisterChanges := by
  intro i s t r h hne
  by_contra hr
  exact hne (effect_readReg (effect_of_exec h) hr)

/-- The state with another stack. -/
def replaceStack (st : List Word) (s : State) : State := { s with stack := st }

/-- R14, R57: an instruction that is not one of the stack's takes any stack along unchanged. -/
theorem exec_replaceStack {i : Instr} (hi : usesStack i = false) (s : State) (st : List Word) :
    ∃ t, exec i s = .next t ∧ exec i (replaceStack st s) = .next (replaceStack st t) := by
  cases i with
  | push | pop | call | ret => cases hi
  | halt | set | eq | gt | jmp | add | mult | and | or | not | noop => exact ⟨_, rfl, rfl⟩
  | jt | jf | mod | rmem | wmem =>
    refine ⟨_, rfl, congrArg Host.Outcome.next (Eq.symm ?_)⟩
    exact apply_ite (replaceStack st) _ _ _
  | out c =>
    refine ⟨_, rfl, congrArg Host.Outcome.next ?_⟩
    cases hk : s.sink <;> simp [effectOut, emit, replaceStack, hk] <;> rfl
  | inp d =>
    refine ⟨_, rfl, congrArg Host.Outcome.next ?_⟩
    cases hi : s.input with
    | cons c rest => simp [effectIn, receive, replaceStack, hi]; rfl
    | nil =>
      cases he : s.inputEnded with
      | true => simp [effectIn, receive, replaceStack, hi, he]; rfl
      | false => simp [effectIn, receive, replaceStack, hi, he]

/-- Settles O55, by running the instruction on the two stacks. -/
theorem stackIsolated : Obligations.StackIsolated := by
  intro i s t st hi h
  obtain ⟨u, hu, hst⟩ := exec_replaceStack hi s st
  rw [h] at hu
  cases hu
  exact ⟨effect_stack (effect_of_exec h) hi, hst⟩

/-- Settles O57, by the ways a step out of reset can go. -/
theorem outputGrowsByOutAlone : Obligations.OutputGrowsByOutAlone := by
  intro s t hr h
  rcases step_cases hr h with ⟨-, rfl⟩ | ⟨-, i, rest, n, hd, he⟩ | ⟨-, e, n, -, f, info, -, rfl⟩
  · exact .inl rfl
  · rcases effect_output he with hsame | ⟨c, rfl, hout⟩
    · exact .inl hsame
    · exact .inr ⟨c, rest, n, hd, hout⟩
  · exact .inl rfl

/-- Settles O58, by the ways a step out of reset can go. -/
theorem inputTakenByInAlone : Obligations.InputTakenByInAlone := by
  intro s t hr h
  rcases step_cases hr h with ⟨-, rfl⟩ | ⟨-, i, rest, n, hd, he⟩ | ⟨-, e, n, -, f, info, -, rfl⟩
  · exact .inl ⟨rfl, rfl⟩
  · rcases effect_input he with hsame | ⟨d, c, rest', rfl, htaken⟩
    · exact .inl hsame
    · exact .inr ⟨d, c, rest', rest, n, hd, htaken⟩
  · exact .inl ⟨rfl, rfl⟩

/-- Settles O59, by the states an instruction can lead to. -/
theorem pcAdvancesByLength : Obligations.PcAdvancesByLength :=
  fun _ _ _ h hi hh => effect_pc (effect_of_exec h) hi hh

/-! ### Terminal states (R17) -/

/-- The states differ at most in the environment's side of the streams: pending input, its end, the sink. -/
def OnlyStreamsDiffer (s t : State) : Prop :=
  ∃ input ended sink, t = { s with input := input, inputEnded := ended, sink := sink }

/-- R17, R203: in a terminal state out of reset no move but the assertion of reset reaches the core. -/
theorem applyMove_terminal {s : State} (hr : s.rst = false) (hs : s.runState ≠ .running) {m : Move}
    (hm : m ≠ .assertReset) : OnlyStreamsDiffer s (applyMove m s) := by
  cases m with
  | core => rw [applyMove, step_of_terminal hr hs]; exact ⟨_, _, _, rfl⟩
  | assertReset => exact absurd rfl hm
  | startRun file input ended sink =>
    rcases startRun_cases file input ended sink s with ⟨bs, hrst, -⟩ | ⟨h, -⟩
    · rw [hr] at hrst; cases hrst
    · rw [applyMove, h]; exact ⟨_, _, _, rfl⟩
  | supply w =>
    simp only [applyMove]
    split <;> exact ⟨_, _, _, rfl⟩
  | endInput | failInput | sinkTo => exact ⟨_, _, _, rfl⟩

theorem applyMoves_terminal (ms : List Move) {s : State} (hr : s.rst = false) (hs : s.runState ≠ .running)
    (hms : ∀ m ∈ ms, m ≠ .assertReset) : OnlyStreamsDiffer s (applyMoves ms s) := by
  induction ms generalizing s with
  | nil => exact ⟨_, _, _, rfl⟩
  | cons m ms ih =>
    obtain ⟨hm, hms⟩ := List.forall_mem_cons.mp hms
    obtain ⟨i, e, k, hmove⟩ := applyMove_terminal hr hs hm
    obtain ⟨i', e', k', htail⟩ := ih (s := { s with input := i, inputEnded := e, sink := k }) hr hs hms
    exact ⟨i', e', k', by rw [applyMoves, hmove, htail]⟩

/-- Settles O12, by induction on the moves. -/
theorem onlyResetLeavesTerminalState : Obligations.OnlyResetLeavesTerminalState := by
  refine ⟨rfl, rfl, rfl, fun s hr hs => ⟨step_of_terminal hr hs, fun ms hms => ?_⟩⟩
  obtain ⟨i, e, k, h⟩ := applyMoves_terminal ms hr hs hms
  rw [h]
  exact ⟨rfl, rfl, rfl, rfl, rfl, rfl, rfl, rfl, rfl⟩

/-! ### Reset and the start of a run (R31, R55, R203) -/

/-- Settles O17. The reset state is its own reset, so its registers read 0. -/
theorem resetState : Obligations.ResetState :=
  ⟨readReg_applyReset State.reset, rfl, rfl, fun _ => rfl, rfl, rfl, rfl, rfl, rfl, rfl, rfl, rfl⟩

/-- R69: the words of an even number of bytes hold those bytes. -/
theorem bytesOfWords_wordsOfBytes : ∀ {bs : List Byte}, bs.length % 2 = 0 → bytesOfWords (wordsOfBytes bs) = bs
  | [], _ => rfl
  | [_], h => by simp at h
  | lo :: hi :: bs, h => by
    have ih := bytesOfWords_wordsOfBytes (bs := bs) (by simp only [List.length_cons] at h; omega)
    simp [wordsOfBytes, bytesOfWords, ih]

/-- R43, R55: from byte `2 * a` on stand the bytes of the stored words; every other byte reads as before. -/
theorem readByte_storeWords (ws : List Word) (m : Memory) (a k : Nat) :
    readByte (storeWords m a ws) k =
      if k < 2 * a then readByte m k else (bytesOfWords ws)[k - 2 * a]?.getD (readByte m k) := by
  induction ws generalizing m a with
  | nil => simp [storeWords, bytesOfWords]
  | cons w ws ih =>
    rw [storeWords, ih, readByte_writeWord]
    rcases lt_or_ge k (2 * a) with hlt | hge
    · have h2 : k < 2 * (a + 1) := by omega
      have h0 : k ≠ 2 * a := by omega
      have h1 : k ≠ 2 * a + 1 := by omega
      simp [hlt, h2, h0, h1]
    · obtain ⟨j, rfl⟩ := Nat.exists_eq_add_of_le hge
      match j with
      | 0 => simp [bytesOfWords]
      | 1 =>
        have h1 : 2 * a + 1 < 2 * (a + 1) := by omega
        simp [bytesOfWords, h1]
      | j + 2 =>
        have h2 : 2 * a + (j + 2) - 2 * (a + 1) = j := by omega
        have h3 : ¬ 2 * a + (j + 2) < 2 * (a + 1) := by omega
        simp [bytesOfWords, h2, h3]

/-- R55: memory after the start of a run is the file, then zeros. -/
theorem readByte_image {bs : List Byte} (h : bs.length % 2 = 0) (k : Nat) :
    readByte (storeWords [] 0 (wordsOfBytes bs)) k = bs[k]?.getD 0 := by
  rw [readByte_storeWords, bytesOfWords_wordsOfBytes h]
  rfl

/-- R55: stored words are read back. -/
theorem readWord_storeWords {ws : List Word} {j : Nat} {w : Word} (h : ws[j]? = some w) (m : Memory) (a : Nat) :
    readWord (storeWords m a ws) (a + j) = w := by
  induction ws generalizing m a j with
  | nil => cases h
  | cons v ws ih =>
    rw [storeWords]
    cases j with
    | zero =>
      cases h
      rw [readWord_storeWords_below (by omega), Nat.add_zero, readWord_writeWord_same]
    | succ j =>
      have := ih (by simpa using h) (writeWord m a v) (a + 1)
      rwa [Nat.add_right_comm, Nat.add_assoc] at this

/-- R200, R202: the core under an asserted reset. -/
def heldInReset (s : State) : State := applyReset { s with rst := true }

theorem boot_eq (file : Option (List Byte)) (input : List Word) (ended : Bool) (sink : Sink) (s : State) :
    boot file input ended sink s = startRun file input ended sink (heldInReset s) := rfl

/-- R203: the start of a run with a file the host admits releases the core on its image. -/
theorem boot_admitted {bs : List Byte} {s : State} (h2 : bs.length % 2 = 0) (hl : bs.length ≤ 2 * s.config.memWords)
    (input : List Word) (ended : Bool) (sink : Sink) :
    boot (some bs) input ended sink s = release (wordsOfBytes bs) input ended sink (heldInReset s) := by
  rw [boot_eq]
  rcases startRun_cases (some bs) input ended sink (heldInReset s) with ⟨bs', -, hf, -, -, h⟩ | ⟨-, hbad⟩
  · cases hf; exact h
  · have hl' : bs.length ≤ 2 * (heldInReset s).config.memWords := hl
    rcases hbad rfl bs rfl with h | h <;> omega

/-- R203: the start of a run with any other file leaves the core held in reset. -/
theorem boot_refused {file : Option (List Byte)} {s : State}
    (hbad : ∀ bs, file = some bs → bs.length % 2 = 1 ∨ 2 * s.config.memWords < bs.length)
    (input : List Word) (ended : Bool) (sink : Sink) : boot file input ended sink s = heldInReset s := by
  rw [boot_eq]
  rcases startRun_cases file input ended sink (heldInReset s) with ⟨bs, -, hf, h2, hl, -⟩ | ⟨h, -⟩
  · have hl' : bs.length ≤ 2 * s.config.memWords := hl
    rcases hbad bs hf with h | h <;> omega
  · exact h

theorem startReport_admitted {c : Config} {bs : List Byte} (h2 : bs.length % 2 = 0) (hl : bs.length ≤ 2 * c.memWords) :
    startReport c (some bs) = none := by
  rw [startReport, admitImage_eq_ok.mpr ⟨bs, rfl, h2, hl, rfl⟩]

/-- R184: a refusal says the file is missing exactly when it is. -/
theorem admitImage_error {c : Config} {file : Option (List Byte)} {why : StartRefusal}
    (h : admitImage c file = .error why) : why = .programNotFound ↔ file = none := by
  cases file with
  | none => cases h; simp
  | some bs =>
    unfold admitImage at h
    simp only at h
    split at h
    · cases h; simp
    · split at h
      · cases h
      · cases h; simp

/-- R184, R203, R212. -/
theorem startReport_refused {c : Config} {file : Option (List Byte)}
    (hbad : ∀ bs, file = some bs → bs.length % 2 = 1 ∨ 2 * c.memWords < bs.length) :
    ∃ why, startReport c file = some (.notStarted why) ∧ (why = .programNotFound ↔ file = none) := by
  cases ha : admitImage c file with
  | ok image =>
    obtain ⟨bs, hf, h2, hl, -⟩ := admitImage_eq_ok.mp ha
    rcases hbad bs hf with h | h <;> omega
  | error why => exact ⟨why, by rw [startReport, ha], admitImage_error ha⟩

/-- R203: no move but a start with a file the host admits releases `rst`. -/
theorem startRun_of_released {m : Move} {s : State} (hr : s.rst = true) (h : (applyMove m s).rst = false) :
    ∃ bs input ended sink, m = .startRun (some bs) input ended sink ∧ bs.length % 2 = 0 ∧
      bs.length ≤ 2 * s.config.memWords := by
  cases m with
  | startRun file input ended sink =>
    rcases startRun_cases file input ended sink s with ⟨bs, -, rfl, h2, hl, -⟩ | ⟨hsame, -⟩
    · exact ⟨bs, input, ended, sink, rfl, h2, hl⟩
    · rw [applyMove, hsame, hr] at h; cases h
  | core => rw [applyMove, step_of_rst hr, applyReset_rst, hr] at h; cases h
  | supply w =>
    simp only [applyMove] at h
    split at h <;> cases hr.symm.trans h
  | assertReset => cases h
  | endInput | failInput | sinkTo => cases hr.symm.trans h

/-- Settles O19: an admitted file releases the core on its image, any other leaves it held in reset. -/
theorem bootLoadsImageAndZeros : Obligations.BootLoadsImageAndZeros := by
  refine ⟨?_, ?_, fun m s => startRun_of_released⟩
  · rintro bs input ended sink s t h2 hl rfl
    rw [boot_admitted h2 hl]
    refine ⟨startReport_admitted h2 hl, ⟨rfl, rfl⟩, rfl, readReg_applyReset { s with rst := true }, rfl, rfl, rfl, rfl,
      rfl, rfl, rfl, rfl, rfl, ?_, ?_, ?_, ?_⟩
    all_goals simp only [release_mem]
    · intro k b hb
      rw [readByte_image h2, hb, Option.getD_some]
    · intro k hk
      rw [readByte_image h2, List.getElem?_eq_none hk, Option.getD_none]
    · intro j w hw
      simpa using readWord_storeWords hw [] 0
    · intro j hj
      rw [readWord, readByte_image h2, readByte_image h2, List.getElem?_eq_none hj,
        List.getElem?_eq_none (hj.trans (Nat.le_succ _))]
      rfl
  · rintro file input ended sink s t hbad rfl
    rw [boot_refused hbad]
    exact ⟨startReport_refused hbad, rfl, rfl, step_of_rst rfl⟩

end Sys2Proof.Machine

/-! ### Words in memory (R42, R43, R53) -/

namespace Sys2Proof.Machine

/-- R43: the value of a word, from its low and its high byte. -/
theorem toNat_wordOfBytes (lo hi : Byte) : (wordOfBytes lo hi).toNat = 256 * hi.toNat + lo.toNat :=
  calc (wordOfBytes lo hi).toNat
    _ = hi.toNat <<< 8 ||| lo.toNat := BitVec.toNat_append hi lo
    _ = hi.toNat <<< 8 + lo.toNat := (Nat.shiftLeft_add_eq_or_of_lt lo.isLt _).symm
    _ = 256 * hi.toNat + lo.toNat := by rw [Nat.shiftLeft_eq, Nat.mul_comm]

/-- Settles O44, since the word read is made of the two bytes read. -/
theorem wordsAreLittleEndian : Obligations.WordsAreLittleEndian :=
  fun m a => toNat_wordOfBytes (readByte m (2 * a)) (readByte m (2 * a + 1))

/-- R151: a `wmem` with its address inside memory completes, with the word written. -/
theorem exec_wmem_inside {m : Operand} {s : State} (h : (value s m).toNat < s.config.memWords) (v : Operand) :
    exec (.wmem m v) s =
      .next { advance 3 s with mem := writeWord s.mem (value s m).toNat (value s v) } := by
  rcases memWrite_cases (value s m) (value s v) (advance 3 s) with ⟨hout, -⟩ | ⟨-, hw⟩
  · exact absurd h (Nat.not_lt.mpr hout)
  · exact congrArg Host.Outcome.next hw

/-- R80: the first word a fetch inside memory takes is the one at `pc`. -/
theorem fetchWindow_zero {s : State} (h : s.pc.toNat < s.config.memWords) :
    (fetchWindow s)[0]? = some (readWord s.mem s.pc.toNat) := by
  rw [fetchWindow, windowFrom_inside h, List.getElem?_cons_zero]

/-- Settles O48: the fetch after the `wmem` reads the address that was written. -/
theorem writtenWordIsFetchedNext : Obligations.WrittenWordIsFetchedNext := by
  intro m v s haddr hin
  refine ⟨_, exec_wmem_inside hin v, ?_⟩
  have hpc : (advance 3 s).pc = value s m := haddr.symm
  have hfetch : (advance 3 s).pc.toNat < s.config.memWords := hpc ▸ hin
  rw [fetchWindow_zero]
  · simp only [hpc, readWord_writeWord_same]
  · exact hfetch

end Sys2Proof.Machine

/-! ### The decoder and the encoder are inverse (R60 to R69) -/

namespace Sys2Proof

theorem formR_words (f : Reg → Instr) (d : Reg) (rest : List Word) (n : Nat) :
    formR f (regWord d :: rest) n = .instr (f d) rest (n + 1) := by
  rw [formR, takeReg_regWord]

theorem formV_words {a : Operand} (ha : a.wf = true) (f : Operand → Instr) (rest : List Word) (n : Nat) :
    formV f (a.word :: rest) n = .instr (f a) rest (n + 1) := by
  rw [formV, takeVal_word ha]

theorem formRV_words {a : Operand} (ha : a.wf = true) (f : Reg → Operand → Instr) (d : Reg) (rest : List Word)
    (n : Nat) : formRV f (regWord d :: a.word :: rest) n = .instr (f d a) rest (n + 2) := by
  rw [formRV, takeReg_regWord, formV_words ha]

theorem formVV_words {a b : Operand} (hab : (a.wf && b.wf) = true) (f : Operand → Operand → Instr) (rest : List Word)
    (n : Nat) : formVV f (a.word :: b.word :: rest) n = .instr (f a b) rest (n + 2) := by
  obtain ⟨ha, hb⟩ := Bool.and_eq_true_iff.mp hab
  rw [formVV, takeVal_word ha, formV_words hb]

theorem formRVV_words {a b : Operand} (hab : (a.wf && b.wf) = true) (f : Reg → Operand → Operand → Instr) (d : Reg)
    (rest : List Word) (n : Nat) :
    formRVV f (regWord d :: a.word :: b.word :: rest) n = .instr (f d a b) rest (n + 3) := by
  rw [formRVV, takeReg_regWord, formVV_words hab]

/-- R64: after its opcode word the operand readers take back a well-formed instruction's operand words. -/
theorem decodeOperands_operandWords {i : Instr} (h : i.wf = true) (rest : List Word) :
    decodeOperands i.opcode (i.operandWords ++ rest) 1 = .instr i rest i.length := by
  cases i with
  | halt | ret | noop => rfl
  | pop d | inp d => exact formR_words _ d rest 1
  | push a | jmp a | call a | out a => exact formV_words h _ rest 1
  | set d a | not d a | rmem d a => exact formRV_words h _ d rest 1
  | jt a b | jf a b | wmem a b => exact formVV_words h _ rest 1
  | eq d a b | gt d a b | add d a b | mult d a b | mod d a b | and d a b | or d a b =>
    exact formRVV_words h _ d rest 1

/-- Settles O1: the operand words are read back by the readers of the instruction's format. -/
theorem decodeEncodeRoundTrip : Obligations.DecodeEncodeRoundTrip :=
  fun _ rest h => decodeOperands_operandWords h rest

/-- Settles O3, by what the operand readers took when they do not reject. -/
theorem decodedWordsAreTheEncoding : Obligations.DecodedWordsAreTheEncoding :=
  fun _ _ _ _ h => decodeWords_eq_instr h

/-! #### Bytes (R43, R69) -/

theorem bytesOfWords_append (ws vs : List Word) : bytesOfWords (ws ++ vs) = bytesOfWords ws ++ bytesOfWords vs := by
  induction ws with
  | nil => rfl
  | cons w ws ih => simp [bytesOfWords, ih]

theorem wordsOfBytes_bytesOfWords (ws : List Word) : wordsOfBytes (bytesOfWords ws) = ws := by
  induction ws with
  | nil => rfl
  | cons w ws ih => rw [bytesOfWords, wordsOfBytes, Machine.wordOfBytes_low_high, ih]

/-- Settles O2: the bytes hold the words, and those decode by the round trip on words. -/
theorem decodeBytesRoundTrip : Obligations.DecodeBytesRoundTrip := by
  intro i rest h
  rw [decodeBytes, encodeBytes, ← bytesOfWords_append, wordsOfBytes_bytesOfWords]
  exact decodeEncodeRoundTrip i rest h

/-! #### The opcode word (R65, R66) -/

/-- R64: the fourth column of the opcode table, by the opcode word; an opcode word of 22 or more has no row. -/
def formatOfOpcode (op : Word) : Option Format :=
  match op.toNat with
  | 0 | 18 | 21 => some .N
  | 3 | 20 => some .R
  | 2 | 6 | 17 | 19 => some .V
  | 1 | 14 | 15 => some .RV
  | 7 | 8 | 16 => some .VV
  | 4 | 5 | 9 | 10 | 11 | 12 | 13 => some .RVV
  | _ => none

theorem formatOfOpcode_opcode (i : Instr) : formatOfOpcode i.opcode = some i.format := by
  cases i <;> rfl

/-- R65: instructions with one opcode have one format. -/
theorem format_eq_of_opcode_eq {i j : Instr} (h : i.opcode = j.opcode) : i.format = j.format := by
  have hf := congrArg formatOfOpcode h
  rw [formatOfOpcode_opcode, formatOfOpcode_opcode] at hf
  exact Option.some.inj hf

/-- Settles O4: the opcode word is the opcode of whatever is decoded, so both instructions have its format. -/
theorem opcodeFixesLength : Obligations.OpcodeFixesLength := by
  intro op ws ws' i j rest rest' n m hi hj
  obtain ⟨-, hopi, -, rfl⟩ := decodeOperands_eq_instr hi
  obtain ⟨-, hopj, -, rfl⟩ := decodeOperands_eq_instr hj
  have hf : i.format = j.format := format_eq_of_opcode_eq (hopi.symm.trans hopj)
  exact ⟨congrArg Format.words hf, hf⟩

/-- Settles O5: no row of the opcode table has the word, so the decoder's last arm answers. -/
theorem illegalOpcodeRejected : Obligations.IllegalOpcodeRejected := by
  intro op ws hop
  change decodeOperands op ws 1 = .rejected (.unknownOpcode op) 1
  unfold decodeOperands
  split
  case h_23 => rfl
  all_goals omega

/-- Settles O7: each sample is an encoding, so the round trips read it back. -/
theorem sampleWordsDecode : Obligations.SampleWordsDecode :=
  ⟨decodeBytesRoundTrip (.add 0 (.reg 1) (.lit 4)) [] rfl,
    decodeEncodeRoundTrip (.set 2 (.lit 500)) [] rfl,
    decodeEncodeRoundTrip (.pop 7) [0] rfl,
    decodeEncodeRoundTrip (.call (.lit 10)) [] rfl,
    decodeEncodeRoundTrip (.wmem (.lit 20) (.reg 0)) [] rfl,
    decodeEncodeRoundTrip (.inp 5) [] rfl,
    decodeEncodeRoundTrip .noop [] rfl⟩

end Sys2Proof

/-! ### The classifier (R81) -/

namespace Sys2Proof

theorem isOpcode_iff (w : Word) : isOpcode w = true ↔ w.toNat ≤ 21 := by simp [isOpcode]

theorem isStrictLiteral_iff (w : Word) : isStrictLiteral w = true ↔ 22 ≤ w.toNat ∧ w.toNat ≤ 32767 := by
  simp [isStrictLiteral]

theorem isLiteral_iff (w : Word) : isLiteral w = true ↔ w.toNat ≤ 32767 := by simp [isLiteral]

theorem isReg_iff (w : Word) : isReg w = true ↔ 32768 ≤ w.toNat ∧ w.toNat ≤ 32775 := by simp [isReg]

theorem isInvalid_iff (w : Word) : isInvalid w = true ↔ 32776 ≤ w.toNat := by simp [isInvalid]

/-- R81: a literal is a word whose bit 15 is clear. -/
theorem isLiteral_iff_bit (w : Word) : isLiteral w = true ↔ w.getLsbD 15 = false := by
  have hmsb : w.msb = w.getLsbD 15 := BitVec.msb_eq_getLsbD_last w
  rw [isLiteral_iff, ← hmsb, BitVec.msb_eq_false_iff_two_mul_lt]
  omega

/-- R81: every word is of exactly one class. -/
theorem wordClass_cases (w : Word) :
    (isLiteral w = true ∧ isReg w = false ∧ isInvalid w = false) ∨
    (isLiteral w = false ∧ isReg w = true ∧ isInvalid w = false) ∨
    (isLiteral w = false ∧ isReg w = false ∧ isInvalid w = true) := by
  simp only [Bool.eq_false_iff, ne_eq, isLiteral_iff, isReg_iff, isInvalid_iff]
  omega

/-- R81: the index of a register word is its distance from 32768. -/
theorem regIndex_val {w : Word} (h : isReg w = true) : (regIndex w).val = w.toNat - 32768 := by
  obtain ⟨hlo, hhi⟩ := (isReg_iff w).mp h
  change w.toNat % 8 = w.toNat - 32768
  omega

/-- R81: the index is bits 2 to 0 of the word, whatever its class. -/
theorem regIndex_val_eq_bits (w : Word) : (regIndex w).val = (w.extractLsb' 0 3).toNat := by
  simp [regIndex, BitVec.extractLsb'_toNat]

/-- Settles O6, from the range each class is. -/
theorem wordClassesPartition : Obligations.WordClassesPartition := fun w =>
  ⟨isOpcode_iff w, isStrictLiteral_iff w, isLiteral_iff w, isLiteral_iff_bit w, isReg_iff w, isInvalid_iff w,
    wordClass_cases w, fun h => ⟨regIndex_val h, regIndex_val_eq_bits w⟩⟩

end Sys2Proof

/-! ### The word readers on the machine (R80 to R85) -/

namespace Sys2Proof.Machine

theorem fetchWord_outside {s : State} (h : s.config.memWords ≤ s.pc.toNat) (k : Word → State → State) :
    fetchWord s k = raise .addressOutOfRange s.pc s := by
  rcases fetchWord_cases s k with ⟨-, hf⟩ | ⟨hin, -⟩
  · exact hf
  · omega

theorem fetchWord_inside {s : State} (h : s.pc.toNat < s.config.memWords) (k : Word → State → State) :
    fetchWord s k = k (readWord s.mem s.pc.toNat) (advance 1 s) := by
  rcases fetchWord_cases s k with ⟨hout, -⟩ | ⟨-, hf⟩
  · omega
  · exact hf

/-- Settles O52: the word fetched is invalid, a literal or a register word. -/
theorem readValueResolvesOnce : Obligations.ReadValueResolvesOnce := by
  refine fun s k => ⟨fun hout => fetchWord_outside hout _, fun w hin hw => ?_⟩
  subst hw
  rw [readValue, fetchWord_inside hin]
  refine ⟨fun hbad => ?_, fun hlit => ?_, fun r hreg => ?_⟩
  · rw [if_pos ((isInvalid_iff _).mpr hbad)]; rfl
  · rw [if_neg (by rw [isInvalid_iff]; omega), if_neg (by rw [isReg_iff]; omega)]; rfl
  · have hw : readWord s.mem s.pc.toNat = regWord r := BitVec.eq_of_toNat_eq (hreg.trans (toNat_regWord r).symm)
    simp only [hw, isInvalid_regWord, isReg_regWord, regIndex_regWord, if_true]
    rfl

/-- Settles O53: the word fetched is a strict literal or it is not. -/
theorem readOpcodeLiteralAcceptsStrictLiterals : Obligations.ReadOpcodeLiteralAcceptsStrictLiterals := by
  refine fun s k => ⟨fun hout => fetchWord_outside hout _, fun w hin hw => ?_⟩
  subst hw
  rw [readOpcodeLiteral, fetchWord_inside hin]
  refine ⟨fun hlit => ?_, fun hbad => ?_⟩
  · rw [if_pos ((isStrictLiteral_iff _).mpr hlit)]; rfl
  · rw [if_neg (by rw [isStrictLiteral_iff]; omega)]; rfl

end Sys2Proof.Machine

/-! ### Decoding first and reading word by word are one step (R86 to R88) -/

namespace Sys2Proof.Machine

/-- What is left of the fetch window after `n` words. -/
def windowAfter (s : State) (n : Nat) : List Word :=
  windowFrom s.config.memWords s.mem (wordAddr s n) (4 - n)

theorem windowAfter_zero (s : State) : windowAfter s 0 = fetchWindow s := by
  rw [windowAfter, wordAddr, BitVec.add_zero]; rfl

theorem windowAfter_outside {s : State} {n : Nat} (h : s.config.memWords ≤ (wordAddr s n).toNat) :
    windowAfter s n = [] :=
  windowFrom_outside h s.mem (4 - n)

theorem windowAfter_inside {s : State} {n : Nat} (hn : n < 4) (h : (wordAddr s n).toNat < s.config.memWords) :
    windowAfter s n = readWord s.mem (wordAddr s n).toNat :: windowAfter s (n + 1) := by
  have hlen : 4 - n = 4 - (n + 1) + 1 := by omega
  have hnext : wordAddr s n + 1 = wordAddr s (n + 1) := by
    rw [wordAddr, wordAddr, BitVec.ofNat_add, ← BitVec.add_assoc]
    rfl
  rw [windowAfter, hlen, windowFrom_inside h, hnext, windowAfter]

/-- R80: taking the next word of the window is fetching it on the state, if what follows agrees. -/
theorem runDecoded_takeWord {s : State} {n : Nat} (hn : n < 4) {k : Word → List Word → Nat → Decoded}
    {k' : Word → State → State}
    (h : ∀ w, runDecoded (k w (windowAfter s (n + 1)) (n + 1)) s = .next (k' w (advance (n + 1) s))) :
    runDecoded (takeWord (windowAfter s n) n k) s = .next (fetchWord (advance n s) k') := by
  by_cases hin : (wordAddr s n).toNat < s.config.memWords
  · rw [windowAfter_inside hn hin, fetchWord_inside hin, advance_advance]
    exact h _
  · rw [windowAfter_outside (by omega), fetchWord_outside (Nat.not_lt.mp hin)]
    rfl

/-- R82: the two readers of kind `reg` agree, if what follows does. -/
theorem runDecoded_takeReg {s : State} {n : Nat} (hn : n < 4) {k : Reg → List Word → Nat → Decoded}
    {k' : Reg → State → State}
    (h : ∀ d, runDecoded (k d (windowAfter s (n + 1)) (n + 1)) s = .next (k' d (advance (n + 1) s))) :
    runDecoded (takeReg (windowAfter s n) n k) s = .next (readRegAddr (advance n s) k') := by
  refine runDecoded_takeWord hn fun w => ?_
  split
  · exact h _
  · rfl

/-- R83: the two readers of kind `val` agree, if what follows does with the operand's value in the state at the start: no reader
writes a register. -/
theorem runDecoded_takeVal {s : State} {n : Nat} (hn : n < 4) {k : Operand → List Word → Nat → Decoded}
    {k' : Word → State → State}
    (h : ∀ a, runDecoded (k a (windowAfter s (n + 1)) (n + 1)) s = .next (k' (value s a) (advance (n + 1) s))) :
    runDecoded (takeVal (windowAfter s n) n k) s = .next (readValue (advance n s) k') := by
  refine runDecoded_takeWord hn fun w => ?_
  split
  · rfl
  · split
    · exact h (.reg (regIndex w))
    · exact h (.lit w)

theorem runDecoded_formR {s : State} {n : Nat} (hn : n < 4) {f : Reg → Instr} {effect : Reg → State → State}
    (h : ∀ d, exec (f d) s = .next (effect d (advance (n + 1) s))) :
    runDecoded (formR f (windowAfter s n) n) s = .next (readRegAddr (advance n s) effect) :=
  runDecoded_takeReg hn h

theorem runDecoded_formV {s : State} {n : Nat} (hn : n < 4) {f : Operand → Instr} {effect : Word → State → State}
    (h : ∀ a, exec (f a) s = .next (effect (value s a) (advance (n + 1) s))) :
    runDecoded (formV f (windowAfter s n) n) s = .next (readValue (advance n s) effect) :=
  runDecoded_takeVal hn h

theorem runDecoded_formRV {s : State} {n : Nat} (hn : n < 3) {f : Reg → Operand → Instr}
    {effect : Reg → Word → State → State}
    (h : ∀ d a, exec (f d a) s = .next (effect d (value s a) (advance (n + 2) s))) :
    runDecoded (formRV f (windowAfter s n) n) s =
      .next (readRegAddr (advance n s) fun d u => readValue u fun a u => effect d a u) :=
  runDecoded_takeReg (by omega) fun d => runDecoded_formV (by omega) (h d)

theorem runDecoded_formVV {s : State} {n : Nat} (hn : n < 3) {f : Operand → Operand → Instr}
    {effect : Word → Word → State → State}
    (h : ∀ a b, exec (f a b) s = .next (effect (value s a) (value s b) (advance (n + 2) s))) :
    runDecoded (formVV f (windowAfter s n) n) s =
      .next (readValue (advance n s) fun a u => readValue u fun b u => effect a b u) :=
  runDecoded_takeVal (by omega) fun a => runDecoded_formV (by omega) (h a)

theorem runDecoded_formRVV {s : State} {n : Nat} (hn : n < 2) {f : Reg → Operand → Operand → Instr}
    {effect : Reg → Word → Word → State → State}
    (h : ∀ d a b, exec (f d a b) s = .next (effect d (value s a) (value s b) (advance (n + 3) s))) :
    runDecoded (formRVV f (windowAfter s n) n) s =
      .next (readRegAddr (advance n s) fun d u => readValue u fun a u => readValue u fun b u => effect d a b u) :=
  runDecoded_takeReg (by omega) fun d => runDecoded_formVV (by omega) (h d)

/-- R88: row by row, the decoder's readers and then `exec` are the executor's readers and then the effect. -/
theorem runDecoded_decodeOperands (s : State) (op : Word) :
    runDecoded (decodeOperands op (windowAfter s 1) 1) s = .next (executeOpcode s op (advance 1 s)) := by
  unfold decodeOperands
  split
  case h_1 hop | h_19 hop | h_22 hop => rw [executeOpcode, hop]; rfl
  case h_4 hop | h_21 hop => rw [executeOpcode, hop]; exact runDecoded_formR (by decide) fun _ => rfl
  case h_3 hop | h_7 hop | h_18 hop | h_20 hop =>
    rw [executeOpcode, hop]; exact runDecoded_formV (by decide) fun _ => rfl
  case h_2 hop | h_15 hop | h_16 hop =>
    rw [executeOpcode, hop]; exact runDecoded_formRV (by decide) fun _ _ => rfl
  case h_8 hop | h_9 hop | h_17 hop =>
    rw [executeOpcode, hop]; exact runDecoded_formVV (by decide) fun _ _ => rfl
  case h_5 hop | h_6 hop | h_10 hop | h_11 hop | h_12 hop | h_13 hop | h_14 hop =>
    rw [executeOpcode, hop]; exact runDecoded_formRVV (by decide) fun _ _ _ => rfl
  case h_23 =>
    unfold executeOpcode
    split
    case h_23 => rfl
    all_goals contradiction

/-- Settles O9: the opcode word taken is the one fetched, and the rows of the dispatch table agree. -/
theorem stepAgreesWithExecutor : Obligations.StepAgreesWithExecutor := by
  intro s hs
  rw [step_of_active hs, decodeAt, ← windowAfter_zero, decodeWords,
    runDecoded_takeWord (by decide) (runDecoded_decodeOperands s), advance_zero]
  rfl

end Sys2Proof.Machine

/-! ### The words of an instruction at `pc` (R60, R80, R86) -/

namespace Sys2Proof.Machine

/-- R65. -/
theorem length_encode (i : Instr) : (encode i).length = i.length := by cases i <;> rfl

/-- The window begins with the words known to stand at `pc`. -/
theorem fetchWindow_of_prefixAt {i : Instr} {k : Nat} {s : State} (hk : k ≤ i.length) (h : PrefixAt i k s) :
    fetchWindow s = (encode i).take k ++ windowAfter s k := by
  have hlen : ((encode i).take k).length = k := by rw [List.length_take, length_encode, Nat.min_eq_left hk]
  have hw := windowFrom_prefix s.config.memWords s.mem ((encode i).take k) 4 s.pc
    (by rw [hlen]; exact hk.trans (length_le_four i)) h
  rw [hlen] at hw
  exact hw

/-- R86: an instruction standing at `pc` is the one decoded there. -/
theorem decodeAt_of_instrAt {i : Instr} {s : State} (hwf : i.wf = true) (h : InstrAt i s) :
    decodeAt s = .instr i (windowAfter s i.length) i.length := by
  rw [decodeAt, fetchWindow_of_prefixAt le_rfl h, ← length_encode, List.take_length, length_encode]
  exact decodeEncodeRoundTrip i _ hwf

/-- Settles O8: the instruction at `pc` is decoded, and the step executes what was decoded. -/
theorem stepRunsDecodedInstruction : Obligations.StepRunsDecodedInstruction := by
  intro i s hs hwf h
  rw [step_of_active hs, decodeAt_of_instrAt hwf h, runDecoded]

end Sys2Proof.Machine

/-! ### The first offending word (R87, R174) -/

namespace Sys2Proof.Machine

/-- R66, R67: the words `ws` left after `n` taken make a reader of the kind reject with `e` after `m` words: they have ended, or the
next one is not of the kind. -/
inductive Offends : Kind → List Word → Nat → DecodeError → Nat → Prop
  | ends (κ : Kind) (n : Nat) : Offends κ [] n .truncated n
  | reg {w : Word} (h : isReg w = false) (ws : List Word) (n : Nat) :
      Offends .reg (w :: ws) n (.invalidRegister w) (n + 1)
  | val {w : Word} (h : isInvalid w = true) (ws : List Word) (n : Nat) :
      Offends .val (w :: ws) n (.valueOutOfRange w) (n + 1)

theorem takeReg_offends {ws : List Word} {n m : Nat} {e : DecodeError} (h : Offends .reg ws n e m)
    (k : Reg → List Word → Nat → Decoded) : takeReg ws n k = .rejected e m := by
  cases h with
  | ends => rfl
  | reg hw => simp [takeReg, takeWord, hw]

theorem takeVal_offends {ws : List Word} {n m : Nat} {e : DecodeError} (h : Offends .val ws n e m)
    (k : Operand → List Word → Nat → Decoded) : takeVal ws n k = .rejected e m := by
  cases h with
  | ends => rfl
  | val hw => simp [takeVal, takeWord, hw]

section
variable {κ : Kind} {k n m : Nat} {ws : List Word} {e : DecodeError}

theorem formR_offends (hκ : (Format.kinds .R)[k]? = some κ) (h : Offends κ ws (n + k) e m) (f : Reg → Instr) (d : Reg) :
    formR f ([regWord d].take k ++ ws) n = .rejected e m := by
  cases k with
  | zero => cases hκ; exact takeReg_offends h _
  | succ k => cases hκ

theorem formV_offends (hκ : (Format.kinds .V)[k]? = some κ) (h : Offends κ ws (n + k) e m) (f : Operand → Instr)
    (a : Operand) : formV f ([a.word].take k ++ ws) n = .rejected e m := by
  cases k with
  | zero => cases hκ; exact takeVal_offends h _
  | succ k => cases hκ

theorem formRV_offends (hκ : (Format.kinds .RV)[k]? = some κ) (h : Offends κ ws (n + k) e m)
    (f : Reg → Operand → Instr) (d : Reg) (a : Operand) :
    formRV f ([regWord d, a.word].take k ++ ws) n = .rejected e m := by
  cases k with
  | zero => cases hκ; exact takeReg_offends h _
  | succ k =>
    rw [List.take_succ_cons, List.cons_append, formRV, takeReg_regWord]
    exact formV_offends hκ (Nat.succ_add_eq_add_succ n k ▸ h) (f d) a

theorem formVV_offends (hκ : (Format.kinds .VV)[k]? = some κ) (h : Offends κ ws (n + k) e m)
    (f : Operand → Operand → Instr) {a : Operand} (ha : a.wf = true) (b : Operand) :
    formVV f ([a.word, b.word].take k ++ ws) n = .rejected e m := by
  cases k with
  | zero => cases hκ; exact takeVal_offends h _
  | succ k =>
    rw [List.take_succ_cons, List.cons_append, formVV, takeVal_word ha]
    exact formV_offends hκ (Nat.succ_add_eq_add_succ n k ▸ h) (f a) b

theorem formRVV_offends (hκ : (Format.kinds .RVV)[k]? = some κ) (h : Offends κ ws (n + k) e m)
    (f : Reg → Operand → Operand → Instr) (d : Reg) {a : Operand} (ha : a.wf = true) (b : Operand) :
    formRVV f ([regWord d, a.word, b.word].take k ++ ws) n = .rejected e m := by
  cases k with
  | zero => cases hκ; exact takeReg_offends h _
  | succ k =>
    rw [List.take_succ_cons, List.cons_append, formRVV, takeReg_regWord]
    exact formVV_offends hκ (Nat.succ_add_eq_add_succ n k ▸ h) (f d) ha b

/-- R87: after `k` good operand words the reader of the next one decides the rejection. -/
theorem decodeOperands_offends {i : Instr} (hwf : i.wf = true) (hκ : (Format.kinds i.format)[k]? = some κ)
    (h : Offends κ ws (k + 1) e m) :
    decodeOperands i.opcode (i.operandWords.take k ++ ws) 1 = .rejected e m := by
  rw [Nat.add_comm] at h
  cases i with
  | halt | ret | noop => cases hκ
  | pop d | inp d => exact formR_offends hκ h _ d
  | push a | jmp a | call a | out a => exact formV_offends hκ h _ a
  | set d a | not d a | rmem d a => exact formRV_offends hκ h _ d a
  | jt a b | jf a b | wmem a b => exact formVV_offends hκ h _ (Bool.and_eq_true_iff.mp hwf).1 b
  | eq d a b | gt d a b | add d a b | mult d a b | mod d a b | and d a b | or d a b =>
    exact formRVV_offends hκ h _ d (Bool.and_eq_true_iff.mp hwf).1 b

end

/-- R61: a position after the opcode word and inside the instruction has a kind. -/
theorem exists_kind {f : Format} {k : Nat} (h : k + 1 < f.words) : ∃ κ, (Format.kinds f)[k]? = some κ := by
  have hlen : f.words = (Format.kinds f).length + 1 := by cases f <;> rfl
  exact ⟨_, List.getElem?_eq_getElem (by omega)⟩

/-- R48: where the words end after `k` good ones, the decoder lacks the next. -/
theorem decodeWords_truncated {i : Instr} (hwf : i.wf = true) {k : Nat} (hk : k < i.length) :
    decodeWords ((encode i).take k) = .rejected .truncated k := by
  cases k with
  | zero => rfl
  | succ k =>
    obtain ⟨κ, hκ⟩ := exists_kind hk
    have h := decodeOperands_offends hwf hκ (.ends κ (k + 1))
    rwa [List.append_nil] at h

/-- R67: a word that is illegal as an operand word offends the reader of its position, whose rejection becomes the fatal
condition. -/
theorem offends_of_illegalAt {f : Format} {k : Nat} {w : Word} {c : FatalCondition} (h : illegalAt f (k + 1) w = some c) :
    ∃ κ e, (Format.kinds f)[k]? = some κ ∧ (∀ ws n, Offends κ (w :: ws) n e (n + 1)) ∧
      ∀ n s, crashOnReject e n s = raise c w (advance n s) := by
  rw [illegalAt] at h
  split at h
  next hκ =>
    obtain ⟨hw, hc⟩ := Option.ite_none_right_eq_some.mp h
    cases hc
    have hreg : isReg w = false := by rw [Bool.eq_false_iff, ne_eq, isReg_iff]; omega
    exact ⟨.reg, .invalidRegister w, hκ, .reg hreg, fun _ _ => rfl⟩
  next hκ =>
    obtain ⟨hw, hc⟩ := Option.ite_none_right_eq_some.mp h
    cases hc
    exact ⟨.val, .valueOutOfRange w, hκ, .val ((isInvalid_iff w).mpr hw), fun _ _ => rfl⟩
  next => cases h

/-- R66, R67: an illegal word after `k` good ones is the rejection that becomes its fatal condition. -/
theorem decodeWords_illegal {i : Instr} (hwf : i.wf = true) {k : Nat} {w : Word} {c : FatalCondition}
    (h : illegalAt i.format k w = some c) (ws : List Word) :
    ∃ e, decodeWords ((encode i).take k ++ w :: ws) = .rejected e (k + 1) ∧
      ∀ s, crashOnReject e (k + 1) s = raise c w (advance (k + 1) s) := by
  cases k with
  | zero =>
    obtain ⟨hw, hc⟩ := Option.ite_none_right_eq_some.mp h
    cases hc
    exact ⟨_, illegalOpcodeRejected w ws hw, fun _ => rfl⟩
  | succ k =>
    obtain ⟨κ, e, hκ, hoff, hcrash⟩ := offends_of_illegalAt h
    exact ⟨e, decodeOperands_offends hwf hκ (hoff ws (k + 1)), hcrash (k + 2)⟩

/-- R172, R173: raising past `n` words of the instruction is a crash there with everything else as before. -/
theorem crashedBy_raise_advance (c : FatalCondition) (info : Word) (n : Nat) (s : State) :
    CrashedBy c info (wordAddr s n) s (raise c info (advance n s)) :=
  ⟨rfl, rfl, rfl, rfl, rfl, fun _ => rfl, rfl, ⟨rfl, rfl, rfl⟩, ⟨rfl, rfl⟩, rfl, rfl⟩

/-- Settles O10: the good words are the head of the window, and the decoder rejects at the next. -/
theorem firstOffendingWordDecides : Obligations.FirstOffendingWordDecides := by
  intro i hwf s k hs hk hpre
  have hstep : step s = runDecoded (decodeWords ((encode i).take k ++ windowAfter s k)) s := by
    rw [step_of_active hs, decodeAt, fetchWindow_of_prefixAt hk.le hpre]
  refine ⟨fun hout => ?_, fun w c hin hw hc => ?_⟩
  · rw [windowAfter_outside hout, List.append_nil, decodeWords_truncated hwf hk] at hstep
    exact ⟨_, hstep, crashedBy_raise_advance ..⟩
  · rw [windowAfter_inside (hk.trans_le (length_le_four i)) hin, hw] at hstep
    obtain ⟨e, hrej, hcrash⟩ := decodeWords_illegal hwf hc (windowAfter s (k + 1))
    rw [hrej, runDecoded, hcrash] at hstep
    exact ⟨_, hstep, crashedBy_raise_advance ..⟩

end Sys2Proof.Machine

/-! ### `set`, `push`, `pop` (R100 to R102) -/

namespace Sys2Proof.Machine

/-- R13, R89: moving `pc` past the words and putting another stack in place touches no register and nothing else. -/
theorem onlyRegsAndStack_advance (n : Nat) (st : List Word) (s : State) :
    OnlyRegsAndStack [] st s { advance n s with stack := st } :=
  ⟨fun _ _ => rfl, fun _ => rfl, rfl, ⟨rfl, rfl, rfl⟩, ⟨rfl, rfl⟩, ⟨rfl, rfl, rfl⟩, rfl, rfl⟩

/-- R12: a register write adds its own register to those a frame lets differ, and nothing more. -/
theorem onlyRegsAndStack_writeReg {ds : List Reg} {st : List Word} {s t : State} (h : OnlyRegsAndStack ds st s t) (d : Reg)
    (v : Word) : OnlyRegsAndStack (d :: ds) st s (writeReg d v t) := by
  obtain ⟨hregs, hrest⟩ := h
  refine ⟨fun r hr => ?_, hrest⟩
  rw [readReg_writeReg_ne (List.ne_of_not_mem_cons hr), hregs r (List.not_mem_of_not_mem_cons hr)]

/-- R100, R110: the frame of an instruction of `n` words that writes one register. -/
theorem onlyRegs_writeReg_advance (d : Reg) (v : Word) (n : Nat) (s : State) :
    OnlyRegs [d] s (writeReg d v (advance n s)) :=
  onlyRegsAndStack_writeReg (onlyRegsAndStack_advance n s.stack s) d v

theorem stackFull_eq_false_iff (s : State) : stackFull s = false ↔ s.config.stackDepth ≠ some s.stack.length := by
  rw [← Bool.not_eq_true, ne_eq, stackFull_iff]

/-- R101, R15: with room on the stack a `push` completes. -/
theorem exec_push_of_room {s : State} (h : s.config.stackDepth ≠ some s.stack.length) (v : Operand) :
    exec (.push v) s = .next { advance 2 s with stack := s.stack ++ [value s v] } := by
  have hroom : stackFull (advance 2 s) = false := (stackFull_eq_false_iff s).mpr h
  rcases push_cases (value s v) (advance 2 s) fun u => u with ⟨hfull, -⟩ | ⟨-, hpush⟩
  · rw [hroom] at hfull; cases hfull
  · exact congrArg Host.Outcome.next hpush

/-- R101, R15: on a full stack a `push` raises past its words. -/
theorem exec_push_of_full {s : State} (h : s.config.stackDepth = some s.stack.length) (v : Operand) :
    exec (.push v) s = .next (raise .stackOverflow (value s v) (advance 2 s)) := by
  have hfull : stackFull (advance 2 s) = true := (stackFull_iff s).mpr h
  rcases push_cases (value s v) (advance 2 s) fun u => u with ⟨-, hpush⟩ | ⟨hroom, -⟩
  · exact congrArg Host.Outcome.next hpush
  · rw [hfull] at hroom; cases hroom

/-- R102, R16: on a nonempty stack a `pop` completes. -/
theorem exec_pop_of_append {s : State} {rest : List Word} {v : Word} (h : s.stack = rest ++ [v]) (d : Reg) :
    exec (.pop d) s = .next (writeReg d v { advance 2 s with stack := rest }) :=
  congrArg Host.Outcome.next (pop_append (s := advance 2 s) h fun v u => writeReg d v u)

/-- R102, R16: on an empty stack a `pop` raises past its words. -/
theorem exec_pop_of_nil {s : State} (h : s.stack = []) (d : Reg) :
    exec (.pop d) s = .next (raise .stackUnderflow 0 (advance 2 s)) := by
  rcases pop_cases (advance 2 s) fun v u => writeReg d v u with ⟨-, hpop⟩ | ⟨rest, v, hst, -⟩
  · exact congrArg Host.Outcome.next hpop
  · exact absurd (h.symm.trans hst) (by simp)

/-- Settles O23: the register write reads back as the value and is the only one. -/
theorem setCopiesValue : Obligations.SetCopiesValue := fun d v _ =>
  ⟨rfl, firstOffendingWordDecides (.set d v), _, rfl, readReg_writeReg_same .., rfl, onlyRegs_writeReg_advance ..⟩

/-- Settles O24, by whether the stack has room. -/
theorem pushAppendsValue : Obligations.PushAppendsValue := by
  intro v s
  refine ⟨rfl, firstOffendingWordDecides (.push v), fun hroom => ?_, fun hfull => ?_⟩
  · exact ⟨_, exec_push_of_room hroom v, rfl, onlyRegsAndStack_advance ..⟩
  · exact ⟨_, exec_push_of_full hfull v, crashedBy_raise_advance ..⟩

/-- Settles O25, by whether the stack has a top. -/
theorem popTakesTop : Obligations.PopTakesTop := by
  intro d s
  refine ⟨rfl, firstOffendingWordDecides (.pop d), fun rest v hst => ?_, fun hst => ?_⟩
  · exact ⟨_, exec_pop_of_append hst d, readReg_writeReg_same .., rfl,
      onlyRegsAndStack_writeReg (onlyRegsAndStack_advance ..) d v⟩
  · exact ⟨_, exec_pop_of_nil hst d, crashedBy_raise_advance ..⟩

/-- Settles O26: the stack the push leaves ends in the pushed value, which the pop takes off again. -/
theorem pushThenPopReturnsValue : Obligations.PushThenPopReturnsValue := fun v d _ hroom =>
  ⟨_, _, exec_push_of_room hroom v, exec_pop_of_append rfl d, readReg_writeReg_same .., rfl⟩

end Sys2Proof.Machine

/-! ### The ALU (R110 to R119) -/

namespace Sys2Proof.Machine

/-- R110: an instruction that reaches its register write completes with it, past its words. -/
theorem exec_of_computed {s : State} {i : Instr} {d : Reg} {v : Word} (h : computed s i = some (d, v)) :
    exec i s = .next (writeReg d v (advance i.length s)) := by
  cases i with
  | set | eq | gt | add | mult | and | or | not => cases h; rfl
  | mod e a b =>
    simp only [computed] at h
    split at h
    · cases h
    · next hb => cases h; exact congrArg Host.Outcome.next (if_neg hb)
  | _ => cases h

/-- R115: a divisor of 0 raises past the words. -/
theorem exec_mod_of_zero {s : State} {b : Operand} (h : value s b = 0) (d : Reg) (a : Operand) :
    exec (.mod d a b) s = .next (raise .divideByZero (value s a) (advance 4 s)) :=
  congrArg Host.Outcome.next (if_pos h)

/-! #### Each result as a number -/

theorem conditionWord_of {p : Prop} [Decidable p] (h : p) : conditionWord (decide p) = 1 := by
  rw [decide_eq_true h]; rfl

theorem conditionWord_of_not {p : Prop} [Decidable p] (h : ¬ p) : conditionWord (decide p) = 0 := by
  rw [decide_eq_false h]; rfl

theorem toNat_ofNat_mod_modulus (n : Nat) : (BitVec.ofNat 16 (n % modulus)).toNat = n % 32768 := by
  rw [BitVec.toNat_ofNat, modulus]
  omega

theorem toNat_aluAdd (a b : Word) : (aluAdd a b).toNat = (a.toNat + b.toNat) % 32768 := toNat_ofNat_mod_modulus _

theorem toNat_aluMult (a b : Word) : (aluMult a b).toNat = (a.toNat * b.toNat) % 32768 := toNat_ofNat_mod_modulus _

/-- R115: a remainder of a word is a word, so narrowing it loses nothing. -/
theorem toNat_aluMod (a b : Word) : (aluMod a b).toNat = a.toNat % b.toNat := by
  rw [aluMod, BitVec.toNat_ofNat]
  exact Nat.mod_eq_of_lt ((Nat.mod_le _ _).trans_lt a.isLt)

/-- The mask of bits 14 to 0 is the reduction modulo 32768. -/
theorem toNat_and_mask (a : Word) : (a &&& 0x7FFF).toNat = a.toNat % 32768 := by
  rw [BitVec.toNat_and]
  exact Nat.and_two_pow_sub_one_eq_mod a.toNat 15

theorem toNat_aluNot (a : Word) : (aluNot a).toNat = 32767 - a.toNat % 32768 := by
  rw [aluNot, toNat_and_mask, BitVec.toNat_not]
  omega

/-- R119: 32768 divides `2 ^ n`, so wrapping to `n` bits first is not seen after the reduction modulo 32768. -/
theorem wrap_mod_modulus {n : Nat} (h : 15 ≤ n) (x : Nat) : x % 2 ^ n % 32768 = x % 32768 :=
  Nat.mod_mod_of_dvd x (pow_dvd_pow 2 h)

/-! #### The instructions -/

/-- Settles O27: the word written is the comparison of the values read before the write. -/
theorem eqWritesComparison : Obligations.EqWritesComparison := fun d a b _ =>
  ⟨rfl, firstOffendingWordDecides (.eq d a b), _, exec_of_computed rfl,
    fun h => (readReg_writeReg_same ..).trans (conditionWord_of h),
    fun h => (readReg_writeReg_same ..).trans (conditionWord_of_not h), rfl, onlyRegs_writeReg_advance ..⟩

/-- Settles O28: as `eq`, with the unsigned comparison. -/
theorem gtWritesComparison : Obligations.GtWritesComparison := fun d a b _ =>
  ⟨rfl, firstOffendingWordDecides (.gt d a b), _, exec_of_computed rfl,
    fun h => (readReg_writeReg_same ..).trans (conditionWord_of h),
    fun h => (readReg_writeReg_same ..).trans (conditionWord_of_not h.not_gt), rfl, onlyRegs_writeReg_advance ..⟩

/-- Settles O29: the word written is the ALU's sum. -/
theorem addWrapsAtFifteenBits : Obligations.AddWrapsAtFifteenBits := by
  intro d a b s
  refine ⟨rfl, firstOffendingWordDecides (.add d a b), _, exec_of_computed rfl, ?_, rfl, onlyRegs_writeReg_advance ..⟩
  rw [readReg_writeReg_same, toNat_aluAdd]

/-- Settles O30: the word written is the ALU's product. -/
theorem multWrapsAtFifteenBits : Obligations.MultWrapsAtFifteenBits := by
  intro d a b s
  refine ⟨rfl, firstOffendingWordDecides (.mult d a b), _, exec_of_computed rfl, ?_, rfl, onlyRegs_writeReg_advance ..⟩
  rw [readReg_writeReg_same, toNat_aluMult]

/-- Settles O31, by whether the divisor is 0. -/
theorem modWritesRemainder : Obligations.ModWritesRemainder := by
  intro d a b s
  refine ⟨rfl, firstOffendingWordDecides (.mod d a b), fun hb => ?_, fun hb => ?_⟩
  · have hpos : 0 < (value s b).toNat := Nat.pos_of_ne_zero fun h => hb (BitVec.eq_of_toNat_eq h)
    refine ⟨_, exec_of_computed (if_neg hb), ?_, ?_, rfl, onlyRegs_writeReg_advance ..⟩
    all_goals rw [readReg_writeReg_same, toNat_aluMod]
    exact Nat.mod_lt _ hpos
  · exact ⟨_, exec_mod_of_zero hb d a, crashedBy_raise_advance ..⟩

/-- Settles O32, bit by bit. -/
theorem andIsBitwise : Obligations.AndIsBitwise := by
  intro d a b s
  refine ⟨rfl, firstOffendingWordDecides (.and d a b), _, exec_of_computed rfl, fun k => ?_, rfl,
    onlyRegs_writeReg_advance ..⟩
  rw [readReg_writeReg_same, aluAnd, BitVec.getLsbD_and]

/-- Settles O33, bit by bit. -/
theorem orIsBitwise : Obligations.OrIsBitwise := by
  intro d a b s
  refine ⟨rfl, firstOffendingWordDecides (.or d a b), _, exec_of_computed rfl, fun k => ?_, rfl,
    onlyRegs_writeReg_advance ..⟩
  rw [readReg_writeReg_same, aluOr, BitVec.getLsbD_or]

/-- Settles O34: masking the 16-bit complement leaves the 15-bit one. -/
theorem notComplementsFifteenBits : Obligations.NotComplementsFifteenBits := by
  intro d a s
  refine ⟨rfl, firstOffendingWordDecides (.not d a), _, exec_of_computed rfl, ?_, rfl, onlyRegs_writeReg_advance ..⟩
  rw [readReg_writeReg_same, toNat_aluNot]

/-- Settles O35: every form is the unbounded sum or product wrapped to `n`, 16 or 32 bits and then reduced modulo 32768. -/
theorem sumAndProductNarrow : Obligations.SumAndProductNarrow := by
  intro a b
  refine ⟨fun n hn => ⟨?_, ?_⟩, BitVec.eq_of_toNat_eq ?_, BitVec.eq_of_toNat_eq ?_, BitVec.eq_of_toNat_eq ?_⟩
  · rw [toNat_aluAdd, wrap_mod_modulus hn]
  · rw [toNat_aluMult, wrap_mod_modulus hn]
  · rw [toNat_aluAdd, toNat_and_mask, BitVec.toNat_add, wrap_mod_modulus (by decide)]
  · rw [toNat_aluMult, toNat_and_mask, BitVec.toNat_mul, wrap_mod_modulus (by decide)]
  · have hwide : (a.setWidth 32 * b.setWidth 32).toNat = a.toNat * b.toNat % 2 ^ 32 := by simp
    rw [toNat_aluMult, BitVec.toNat_setWidth, BitVec.extractLsb'_toNat, hwide, Nat.shiftRight_zero]
    omega

end Sys2Proof.Machine

/-! ### Control (R130 to R138) -/

namespace Sys2Proof.Machine

/-- R13, R27: writing `pc` and putting another stack in place touches no register and nothing else. -/
theorem onlyRegsAndStack_setPc (a : Word) (st : List Word) (s : State) :
    OnlyRegsAndStack [] st s (setPc a { s with stack := st }) :=
  ⟨fun _ _ => rfl, fun _ => rfl, rfl, ⟨rfl, rfl, rfl⟩, ⟨rfl, rfl⟩, ⟨rfl, rfl, rfl⟩, rfl, rfl⟩

/-- R131 to R133, R136: the frame of an instruction whose one effect is on `pc`. -/
theorem onlyRegs_setPc (a : Word) (s : State) : OnlyRegs [] s (setPc a s) :=
  onlyRegsAndStack_setPc a s.stack s

theorem conditionHolds_iff (c : Word) : conditionHolds c = true ↔ c ≠ 0 := decide_eq_true_iff

theorem not_conditionHolds_iff (c : Word) : ¬ conditionHolds c = true ↔ c = 0 :=
  (conditionHolds_iff c).not_left

/-- R131 to R133, R136: an instruction that only moves `pc` completes with `pc` there. -/
theorem exec_of_nextPc {s : State} {i : Instr} {a : Word} (h : nextPc s i = some a) : exec i s = .next (setPc a s) := by
  cases i with
  | jmp | noop => cases h; rfl
  | jt | jf =>
    cases h
    exact congrArg Host.Outcome.next (apply_ite (setPc · s) ..).symm
  | _ => cases h

/-! #### The stack controller's outcomes, by the state of the stack -/

theorem push_of_room {s : State} (h : s.config.stackDepth ≠ some s.stack.length) (v : Word) (k : State → State) :
    push v s k = k { s with stack := s.stack ++ [v] } :=
  if_neg fun hfull => h ((stackFull_iff s).mp hfull)

theorem push_of_full {s : State} (h : s.config.stackDepth = some s.stack.length) (v : Word) (k : State → State) :
    push v s k = raise .stackOverflow v s :=
  if_pos ((stackFull_iff s).mpr h)

theorem pop_of_nil {s : State} (h : s.stack = []) (k : Word → State → State) : pop s k = raise .stackUnderflow 0 s := by
  simp [pop, h]

/-- R134, R15: with room on the stack a `call` completes. -/
theorem exec_call_of_room {s : State} (h : s.config.stackDepth ≠ some s.stack.length) (a : Operand) :
    exec (.call a) s = .next (setPc (value s a) { s with stack := s.stack ++ [s.pc + 2] }) :=
  congrArg Host.Outcome.next (push_of_room (s := advance 2 s) h (s.pc + 2) (setPc (value s a)))

/-- R134, R15: on a full stack a `call` raises past its words. -/
theorem exec_call_of_full {s : State} (h : s.config.stackDepth = some s.stack.length) (a : Operand) :
    exec (.call a) s = .next (raise .stackOverflow (s.pc + 2) (advance 2 s)) :=
  congrArg Host.Outcome.next (push_of_full (s := advance 2 s) h (s.pc + 2) (setPc (value s a)))

/-- R135, R16: on a nonempty stack a `ret` completes. -/
theorem exec_ret_of_append {s : State} {rest : List Word} {v : Word} (h : s.stack = rest ++ [v]) :
    exec .ret s = .next (setPc v { s with stack := rest }) :=
  congrArg Host.Outcome.next (pop_append (s := advance 1 s) h setPc)

/-- R135, R16: on an empty stack a `ret` raises past its word. -/
theorem exec_ret_of_nil {s : State} (h : s.stack = []) :
    exec .ret s = .next (raise .stackUnderflow 0 (advance 1 s)) :=
  congrArg Host.Outcome.next (pop_of_nil (s := advance 1 s) h setPc)

/-! #### The instructions -/

/-- Settles O36: beside `run_state`, `halt` only moves `pc` past its word. -/
theorem haltStopsTheRun : Obligations.HaltStopsTheRun := fun _ =>
  ⟨rfl, firstOffendingWordDecides .halt, _, rfl, rfl, rfl, rfl, rfl,
    rfl, fun _ => rfl, rfl, ⟨rfl, rfl, rfl⟩, ⟨rfl, rfl⟩, rfl, rfl⟩

/-- Settles O37: the write to `pc` is the only one. -/
theorem jmpWritesPc : Obligations.JmpWritesPc := fun a _ =>
  ⟨rfl, firstOffendingWordDecides (.jmp a), _, exec_of_nextPc rfl, rfl, onlyRegs_setPc ..⟩

/-- Settles O38, by whether the condition holds. -/
theorem jtJumpsOnNonzero : Obligations.JtJumpsOnNonzero := fun c a _ =>
  ⟨rfl, firstOffendingWordDecides (.jt c a), _, exec_of_nextPc rfl,
    fun h => if_pos ((conditionHolds_iff _).mpr h), fun h => if_neg ((not_conditionHolds_iff _).mpr h),
    onlyRegs_setPc ..⟩

/-- Settles O39: as `jt`, with the branches exchanged. -/
theorem jfJumpsOnZero : Obligations.JfJumpsOnZero := fun c a _ =>
  ⟨rfl, firstOffendingWordDecides (.jf c a), _, exec_of_nextPc rfl,
    fun h => if_neg ((not_conditionHolds_iff _).mpr h), fun h => if_pos ((conditionHolds_iff _).mpr h),
    onlyRegs_setPc ..⟩

/-- Settles O40, by whether the stack has room. -/
theorem callPushesReturnAddress : Obligations.CallPushesReturnAddress := by
  intro a s
  refine ⟨rfl, firstOffendingWordDecides (.call a), fun hroom => ?_, fun hfull => ?_⟩
  · exact ⟨_, exec_call_of_room hroom a, rfl, onlyRegsAndStack_setPc ..⟩
  · exact ⟨_, exec_call_of_full hfull a, crashedBy_raise_advance ..⟩

/-- Settles O41, by whether the stack has a top. -/
theorem retPopsPc : Obligations.RetPopsPc := by
  intro s
  refine ⟨rfl, firstOffendingWordDecides .ret, fun rest v hst => ?_, fun hst => ?_⟩
  · exact ⟨_, exec_ret_of_append hst, rfl, onlyRegsAndStack_setPc ..⟩
  · exact ⟨_, exec_ret_of_nil hst, crashedBy_raise_advance ..⟩

/-- Settles O42: the stack the call leaves ends in the return address, which the `ret` takes off again. -/
theorem retReturnsAfterCall : Obligations.RetReturnsAfterCall := fun a _ hroom =>
  ⟨_, exec_call_of_room hroom a, fun _ hu => ⟨_, exec_ret_of_append hu, rfl, rfl⟩⟩

/-- Settles O43: the write to `pc` is the only one. -/
theorem noopOnlyAdvances : Obligations.NoopOnlyAdvances := fun _ =>
  ⟨rfl, firstOffendingWordDecides .noop, _, exec_of_nextPc rfl, rfl, onlyRegs_setPc ..⟩

end Sys2Proof.Machine

/-! ### Memory operations (R150 to R152) -/

namespace Sys2Proof.Machine

/-! #### The memory interface's outcomes, by whether the address lies inside memory (R46 to R48) -/

theorem memRead_outside {s : State} {a : Word} (h : s.config.memWords ≤ a.toNat) (k : Word → State) :
    memRead a s k = raise .addressOutOfRange a s :=
  if_pos ((outOfRange_iff s a).mpr h)

theorem memRead_inside {s : State} {a : Word} (h : a.toNat < s.config.memWords) (k : Word → State) :
    memRead a s k = k (readWord s.mem a.toNat) :=
  if_neg fun hout => h.not_ge ((outOfRange_iff s a).mp hout)

theorem memWrite_outside {s : State} {a : Word} (h : s.config.memWords ≤ a.toNat) (v : Word) :
    memWrite a v s = raise .addressOutOfRange a s :=
  if_pos ((outOfRange_iff s a).mpr h)

/-- R150: an `rmem` with its address inside memory completes, with the word read in the destination. -/
theorem exec_rmem_inside {m : Operand} {s : State} (h : (value s m).toNat < s.config.memWords) (d : Reg) :
    exec (.rmem d m) s = .next (writeReg d (readWord s.mem (value s m).toNat) (advance 3 s)) :=
  congrArg Host.Outcome.next (memRead_inside (s := advance 3 s) h fun w => writeReg d w (advance 3 s))

/-- R150, R48: an `rmem` with its address outside memory raises past its words. -/
theorem exec_rmem_outside {m : Operand} {s : State} (h : s.config.memWords ≤ (value s m).toNat) (d : Reg) :
    exec (.rmem d m) s = .next (raise .addressOutOfRange (value s m) (advance 3 s)) :=
  congrArg Host.Outcome.next (memRead_outside (s := advance 3 s) h fun w => writeReg d w (advance 3 s))

/-- R151, R48: a `wmem` with its address outside memory raises past its words. -/
theorem exec_wmem_outside {m : Operand} {s : State} (h : s.config.memWords ≤ (value s m).toNat) (v : Operand) :
    exec (.wmem m v) s = .next (raise .addressOutOfRange (value s m) (advance 3 s)) :=
  congrArg Host.Outcome.next (memWrite_outside (s := advance 3 s) h (value s v))

/-! #### The bytes of a written word (R43) -/

theorem toNat_lowByte (w : Word) : (lowByte w).toNat = w.toNat % 256 := by
  rw [lowByte, BitVec.extractLsb'_toNat, Nat.shiftRight_zero]

theorem toNat_highByte (w : Word) : (highByte w).toNat = w.toNat / 256 := by
  rw [highByte, BitVec.extractLsb'_toNat, Nat.shiftRight_eq_div_pow]
  omega

theorem readByte_writeWord_low (m : Memory) (a : Nat) (w : Word) :
    readByte (writeWord m a w) (2 * a) = lowByte w := by
  rw [readByte_writeWord, if_pos rfl]

theorem readByte_writeWord_high (m : Memory) (a : Nat) (w : Word) :
    readByte (writeWord m a w) (2 * a + 1) = highByte w := by
  rw [readByte_writeWord, if_neg (Nat.succ_ne_self _), if_pos rfl]

theorem readByte_writeWord_ne {a b : Nat} (hlow : b ≠ 2 * a) (hhigh : b ≠ 2 * a + 1) (m : Memory) (w : Word) :
    readByte (writeWord m a w) b = readByte m b := by
  rw [readByte_writeWord, if_neg hlow, if_neg hhigh]

/-! #### The instructions -/

/-- Settles O45, by whether the address lies inside memory. -/
theorem rmemReadsWord : Obligations.RmemReadsWord := by
  intro d m s
  refine ⟨rfl, firstOffendingWordDecides (.rmem d m), fun hin => ?_, fun hout => ?_⟩
  · exact ⟨_, exec_rmem_inside hin d, readReg_writeReg_same .., rfl, onlyRegs_writeReg_advance ..⟩
  · exact ⟨_, exec_rmem_outside hout d, crashedBy_raise_advance ..⟩

/-- Settles O46, by whether the address lies inside memory; the memory left is the one word write. -/
theorem wmemWritesWord : Obligations.WmemWritesWord := by
  intro m v s
  refine ⟨rfl, firstOffendingWordDecides (.wmem m v), fun hin => ?_, fun hout => ?_⟩
  · refine ⟨_, exec_wmem_inside hin v, readWord_writeWord_same .., ?_, ?_,
      fun a hlow hhigh => readByte_writeWord_ne hlow hhigh .., rfl, rfl, rfl, ⟨rfl, rfl, rfl⟩, ⟨rfl, rfl⟩,
      ⟨rfl, rfl, rfl⟩, rfl, rfl⟩
    · rw [readByte_writeWord_low, toNat_lowByte]
    · rw [readByte_writeWord_high, toNat_highByte]
  · exact ⟨_, exec_wmem_outside hout v, crashedBy_raise_advance ..⟩

/-- Settles O47: the `wmem` leaves the registers, so the `rmem` resolves its operand to the address that was written. -/
theorem wmemThenRmemReturnsValue : Obligations.WmemThenRmemReturnsValue := by
  intro m v d s hin
  have haddr : value { advance 3 s with mem := writeWord s.mem (value s m).toNat (value s v) } m = value s m :=
    value_congr rfl m
  refine ⟨_, _, exec_wmem_inside hin v, exec_rmem_inside ?_ d, ?_, ?_⟩
  · rw [haddr]; exact hin
  · rw [readReg_writeReg_same, haddr, readWord_writeWord_same]
  · exact BitVec.add_assoc s.pc 3 3

end Sys2Proof.Machine

/-! ### Streams (R160 to R163) -/

namespace Sys2Proof.Machine

/-! #### The streams' outcomes, by their condition (R160, R162) -/

theorem emit_of_ready {s : State} (h : s.sink = .ready) (start : State) (c : Word) :
    emit start c s = { s with output := s.output ++ [c] } := by
  rw [emit, h]

theorem emit_of_busy {s : State} (h : s.sink = .busy) (start : State) (c : Word) : emit start c s = start := by
  rw [emit, h]

theorem emit_of_failed {s : State} (h : s.sink = .failed) (start : State) (c : Word) :
    emit start c s = raise .outputFailure c s := by
  rw [emit, h]

theorem receive_of_cons {s : State} {c : Word} {rest : List Word} (h : s.input = c :: rest) (start : State)
    (k : Word → State → State) :
    receive start s k = k c { s with input := rest, inputPos := s.inputPos + 1 } := by
  rw [receive, h]

theorem receive_of_nil {s : State} (h : s.input = []) (start : State) (k : Word → State → State) :
    receive start s k = if s.inputEnded then raise .inputFailure 0 s else start := by
  rw [receive, h]

/-- R161: with a ready sink an `out` completes. -/
theorem exec_out_of_ready {s : State} (h : s.sink = .ready) (c : Operand) :
    exec (.out c) s = .next { advance 2 s with output := s.output ++ [value s c] } :=
  congrArg Host.Outcome.next (emit_of_ready (s := advance 2 s) h s (value s c))

/-- R161, log 3: with a busy sink an `out` holds. -/
theorem exec_out_of_busy {s : State} (h : s.sink = .busy) (c : Operand) : exec (.out c) s = .next s :=
  congrArg Host.Outcome.next (emit_of_busy (s := advance 2 s) h s (value s c))

/-- R160, R161: with a failed sink an `out` raises past its words. -/
theorem exec_out_of_failed {s : State} (h : s.sink = .failed) (c : Operand) :
    exec (.out c) s = .next (raise .outputFailure (value s c) (advance 2 s)) :=
  congrArg Host.Outcome.next (emit_of_failed (s := advance 2 s) h s (value s c))

/-- R163: with a word available an `in` completes. -/
theorem exec_inp_of_cons {s : State} {c : Word} {rest : List Word} (h : s.input = c :: rest) (d : Reg) :
    exec (.inp d) s = .next (writeReg d c { advance 2 s with input := rest, inputPos := s.inputPos + 1 }) :=
  congrArg Host.Outcome.next (receive_of_cons (s := advance 2 s) h s (writeReg d))

/-- R162, R163, log 3: with no word and no end an `in` holds. -/
theorem exec_inp_of_open {s : State} (h : s.input = []) (he : s.inputEnded = false) (d : Reg) :
    exec (.inp d) s = .next s :=
  congrArg Host.Outcome.next
    ((receive_of_nil (s := advance 2 s) h s (writeReg d)).trans (if_neg (Bool.eq_false_iff.mp he)))

/-- R162, R163: at the end of the stream an `in` raises past its words. -/
theorem exec_inp_of_ended {s : State} (h : s.input = []) (he : s.inputEnded = true) (d : Reg) :
    exec (.inp d) s = .next (raise .inputFailure 0 (advance 2 s)) :=
  congrArg Host.Outcome.next ((receive_of_nil (s := advance 2 s) h s (writeReg d)).trans (if_pos he))

/-! #### The instructions -/

/-- Settles O49, by the condition of the sink. -/
theorem outEmitsWord : Obligations.OutEmitsWord := by
  intro c s
  refine ⟨rfl, firstOffendingWordDecides (.out c), fun hready => ?_, fun hbusy => exec_out_of_busy hbusy c,
    fun hfailed => ?_⟩
  · exact ⟨_, exec_out_of_ready hready c, rfl, rfl, rfl, rfl, fun _ => rfl, rfl, ⟨rfl, rfl, rfl⟩, ⟨rfl, rfl, rfl⟩,
      rfl, rfl⟩
  · exact ⟨_, exec_out_of_failed hfailed c, crashedBy_raise_advance ..⟩

/-- Settles O50, by whether a word is there and whether the stream has ended. -/
theorem inReceivesWord : Obligations.InReceivesWord := by
  intro d s
  refine ⟨rfl, firstOffendingWordDecides (.inp d), fun c rest hword => ?_,
    fun hnil hopen => exec_inp_of_open hnil hopen d, fun hnil hended => ?_⟩
  · exact ⟨_, exec_inp_of_cons hword d, readReg_writeReg_same .., rfl, rfl, rfl, rfl,
      fun _ hr => readReg_writeReg_ne (List.ne_of_not_mem_cons hr) .., fun _ => rfl, rfl, ⟨rfl, rfl⟩,
      ⟨rfl, rfl, rfl⟩, rfl, rfl⟩
  · exact ⟨_, exec_inp_of_ended hnil hended d, crashedBy_raise_advance ..⟩

/-- R162, log 12: a stream that has not ended takes the supplied word at its end. -/
theorem applyMove_supply_of_open {s : State} (h : s.inputEnded = false) (w : Word) :
    applyMove (.supply w) s = { s with input := s.input ++ [w] } :=
  if_neg (Bool.eq_false_iff.mp h)

/-- Settles O51: both steps execute the `in` at `pc`, which finds no word in the first and the supplied one in the second. -/
theorem suppliedWordLiftsHold : Obligations.SuppliedWordLiftsHold := by
  intro d w s hs hat hnil hopen
  have hsupply : applyMove (.supply w) s = { s with input := [w] } := by
    rw [applyMove_supply_of_open hopen, hnil, List.nil_append]
  refine ⟨?_, ?_⟩
  · rw [stepRunsDecodedInstruction (.inp d) s hs rfl hat]
    exact exec_inp_of_open hnil hopen d
  · rw [hsupply, stepRunsDecodedInstruction (.inp d) { s with input := [w] } hs rfl hat]
    exact ⟨_, exec_inp_of_cons rfl d, readReg_writeReg_same .., rfl, rfl, rfl⟩

end Sys2Proof.Machine

/-! ### Fatal conditions and the crash (R170 to R174, R185) -/

namespace Sys2Proof.Machine

/-- Settles O16, field by field and code by code. -/
theorem raiseEntersCrash : Obligations.RaiseEntersCrash :=
  ⟨fun _ _ _ => ⟨rfl, rfl, rfl, rfl, rfl, fun _ => rfl, rfl, ⟨rfl, rfl, rfl⟩, ⟨rfl, rfl⟩, rfl, rfl⟩,
    rfl, rfl, rfl, rfl, rfl, rfl, rfl, rfl, rfl, rfl, rfl⟩

/-- Log 2: no step ends in a fault or a refusal. -/
theorem exists_step_eq_next (s : State) : ∃ t, step s = .next t := by
  cases hr : s.rst with
  | true => exact ⟨_, step_of_rst hr⟩
  | false =>
    by_cases hs : s.runState = .running
    · exact ⟨_, stepAgreesWithExecutor s ⟨hs, hr⟩⟩
    · exact ⟨_, step_of_terminal hr hs⟩

/-- R172, R173: the one crash an executed instruction can lead to is a `raise` past its words. -/
theorem effect_crashed {s t : State} {i : Instr} (h : Effect s i t) (hs : s.runState = .running)
    (hc : t.runState = .crashed) :
    ∃ e info, FatalCondition.latched e ∧ t = raise e info (advance i.length s) := by
  cases h with
  | crash info he => exact ⟨_, info, he, rfl⟩
  | halt => cases hc
  | write | move | push | call | pop | ret | rmem | wmem | out | inp | hold => cases hs.symm.trans hc

/-- R172, R173: a crash of the running core is a `raise`, by a condition the core latches, past the words the decoder counted. -/
theorem step_crashed {s t : State} (ha : s.active) (h : step s = .next t) (hc : t.runState = .crashed) :
    ∃ n e info, FatalCondition.latched e ∧ t = raise e info (advance n s) ∧
      ((∃ i rest, decodeAt s = .instr i rest n) ∨ ∃ r, decodeAt s = .rejected r n) := by
  rcases step_cases ha.2 h with ⟨hs, -⟩ | ⟨-, i, rest, n, hd, heff⟩ | ⟨-, r, n, hd, e, info, he, rfl⟩
  · exact absurd ha.1 hs
  · obtain ⟨-, -, rfl⟩ := decodeWords_eq_instr hd
    obtain ⟨e, info, he, rfl⟩ := effect_crashed heff ha.1 hc
    exact ⟨_, e, info, he, rfl, .inl ⟨i, rest, hd⟩⟩
  · exact ⟨n, e, info, he, rfl, .inr ⟨r, hd⟩⟩

/-- Settles O11: every step answers a next state, and a crash among them is a `raise`. -/
theorem everyStepAnswersNext : Obligations.EveryStepAnswersNext := by
  intro s
  obtain ⟨t, h⟩ := exists_step_eq_next s
  refine ⟨t, h, fun hr hs => ?_, fun ha hc => ?_⟩
  · rw [step_of_terminal hr hs] at h
    cases h
    rfl
  · obtain ⟨n, e, info, he, rfl, -⟩ := step_crashed ha h hc
    exact ⟨e, info, he, crashedBy_raise_advance ..⟩

/-- Settles O14: a `raise` past the words the decoder counted has the frame and the `pc` claimed. -/
theorem crashIsPrecise : Obligations.CrashIsPrecise := by
  intro s t ha h hc
  obtain ⟨n, e, info, -, rfl, hd⟩ := step_crashed ha h hc
  obtain ⟨-, -, -, hpc, hframe⟩ := crashedBy_raise_advance e info n s
  refine ⟨hframe, ?_⟩
  rcases hd with ⟨i, rest, hd⟩ | ⟨r, hd⟩
  · exact .inl ⟨i, rest, n, hd, hpc⟩
  · exact .inr ⟨r, n, hd, hpc⟩

/-- Settles O15: the condition raised is one the core latches, and its code is no other condition's. -/
theorem literalExpectedNeverRaised : Obligations.LiteralExpectedNeverRaised := by
  intro s t ha h hc
  obtain ⟨n, e, info, ⟨hprogram, hliteral⟩, rfl, -⟩ := step_crashed ha h hc
  exact ⟨fun hcode => hliteral (code_injective hcode), fun hcode => hprogram (code_injective hcode)⟩

end Sys2Proof.Machine

/-! ### Moves of the core and of its environment (R200 to R205, R212) -/

namespace Sys2Proof.Machine

theorem applyMove_core {s t : State} (h : step s = .next t) : applyMove .core s = t := by
  rw [applyMove, h]

/-- R160, R162, R200 to R203: a move that is not the core's asserts reset, releases the core on an admitted image, or reaches
no more than the streams. -/
theorem applyMove_cases (m : Move) (s : State) :
    m = .core ∨ applyMove m s = heldInReset s ∨
    (∃ bs input ended sink, s.rst = true ∧ bs.length ≤ 2 * s.config.memWords ∧
      applyMove m s = release (wordsOfBytes bs) input ended sink s) ∨
    OnlyStreamsDiffer s (applyMove m s) := by
  cases m with
  | core => exact .inl rfl
  | assertReset => exact .inr (.inl rfl)
  | startRun file input ended sink =>
    rcases startRun_cases file input ended sink s with ⟨bs, hr, -, -, hl, h⟩ | ⟨h, -⟩
    · exact .inr (.inr (.inl ⟨bs, input, ended, sink, hr, hl, h⟩))
    · exact .inr (.inr (.inr ⟨_, _, _, h⟩))
  | supply w =>
    refine .inr (.inr (.inr ?_))
    simp only [applyMove]
    split <;> exact ⟨_, _, _, rfl⟩
  | endInput | failInput | sinkTo => exact .inr (.inr (.inr ⟨_, _, _, rfl⟩))

/-! ### The invariant under a move -/

theorem inv_heldInReset {s : State} (h : s.Inv) : (heldInReset s).Inv where
  config := h.config
  memory := h.memory
  stack := fun _ _ => Nat.zero_le _
  status := ⟨nofun, fun _ => ⟨rfl, rfl⟩⟩
  reset := fun _ => rfl

/-- R55: the image of an admitted file is a legal memory. -/
theorem memoryLegal_release {bs : List Byte} {s : State} (hl : bs.length ≤ 2 * s.config.memWords) (input : List Word)
    (ended : Bool) (sink : Sink) : memoryLegal (release (wordsOfBytes bs) input ended sink s) := by
  have hfits : 0 + (wordsOfBytes bs).length ≤ s.config.memWords := by rw [length_wordsOfBytes]; omega
  exact ⟨wf_storeWords ⟨.nil, nofun⟩ _ _, bounded_storeWords (m := []) nofun hfits⟩

theorem inv_release {bs : List Byte} {s : State} (h : s.Inv) (hl : bs.length ≤ 2 * s.config.memWords) (input : List Word)
    (ended : Bool) (sink : Sink) : (release (wordsOfBytes bs) input ended sink s).Inv where
  config := h.config
  memory := memoryLegal_release hl input ended sink
  stack := h.stack
  status := h.status
  reset := nofun

/-- R19, R20: the invariant asks nothing of the environment's side of the streams. -/
theorem inv_of_onlyStreamsDiffer {s t : State} (h : s.Inv) (ht : OnlyStreamsDiffer s t) : t.Inv := by
  obtain ⟨input, ended, sink, rfl⟩ := ht
  exact
    { config := h.config
      memory := h.memory
      stack := h.stack
      status := h.status
      reset := fun hr =>
        congrArg (fun u : State => { u with input := input, inputEnded := ended, sink := sink }) (h.reset hr) }

theorem inv_applyMove {s : State} (h : s.Inv) (m : Move) : (applyMove m s).Inv := by
  rcases applyMove_cases m s with rfl | hm | ⟨bs, input, ended, sink, -, hl, hm⟩ | hm
  · obtain ⟨t, hstep⟩ := exists_step_eq_next s
    rw [applyMove_core hstep]
    exact stepKeepsInvariant s t h hstep
  · rw [hm]; exact inv_heldInReset h
  · rw [hm]; exact inv_release h hl input ended sink
  · exact inv_of_onlyStreamsDiffer h hm

theorem inv_applyMoves {s : State} (h : s.Inv) (ms : List Move) : (applyMoves ms s).Inv := by
  induction ms generalizing s with
  | nil => exact h
  | cons m ms ih => exact ih (inv_applyMove h m)

/-- Settles O22, by induction on the moves. -/
theorem movesKeepInvariant : Obligations.MovesKeepInvariant := by
  rintro s _ h ⟨ms, rfl⟩
  exact inv_applyMoves h ms

/-! ### The host's report (R205, R212) -/

theorem hostReport_eq_success_iff (s : State) : hostReport s = some .success ↔ s.runState = .halted := by
  unfold hostReport
  cases s.runState <;> simp

/-- R130: of the instructions only `halt` leads from running to halted. -/
theorem effect_halted {s t : State} {i : Instr} (h : Effect s i t) (hs : s.runState = .running)
    (ht : t.runState = .halted) : i = .halt := by
  cases h with
  | halt => rfl
  | crash => cases ht
  | write | move | push | call | pop | ret | rmem | wmem | out | inp | hold => cases hs.symm.trans ht

/-- Settles O13: a step that ends halted decoded `halt`, and `halt` ends halted. -/
theorem successOnlyByHalt : Obligations.SuccessOnlyByHalt := by
  intro s t ha h
  rw [hostReport_eq_success_iff]
  constructor
  · intro ht
    rcases step_cases ha.2 h with ⟨hs, -⟩ | ⟨-, i, rest, n, hd, he⟩ | ⟨-, e, n, -, f, info, -, rfl⟩
    · exact absurd ha.1 hs
    · cases effect_halted he ha.1 ht
      exact ⟨rest, n, hd⟩
    · cases ht
  · rintro ⟨rest, n, hd⟩
    rw [step_of_active ha, hd] at h
    cases h
    rfl

/-! ### Memory out of reset (R203) -/

/-- R45: of the instructions only `wmem` writes memory. -/
theorem effect_mem {s t : State} {i : Instr} (h : Effect s i t) : t.mem = s.mem ∨ ∃ x v, i = .wmem x v := by
  cases h with
  | wmem x v => exact .inr ⟨x, v, rfl⟩
  | halt | write | move | push | call | pop | ret | rmem | out | inp | hold | crash => exact .inl rfl

theorem step_mem {s t : State} (hr : s.rst = false) (h : step s = .next t) :
    t.mem = s.mem ∨ ∃ x v rest n, decodeAt s = .instr (.wmem x v) rest n := by
  rcases step_cases hr h with ⟨-, rfl⟩ | ⟨-, i, rest, n, hd, he⟩ | ⟨-, e, n, -, f, info, -, rfl⟩
  · exact .inl rfl
  · rcases effect_mem he with hsame | ⟨x, v, rfl⟩
    · exact .inl hsame
    · exact .inr ⟨x, v, rest, n, hd⟩
  · exact .inl rfl

/-- R203: out of reset no move of the environment reaches memory. -/
theorem applyMove_mem {m : Move} {s : State} (hr : s.rst = false) (hm : m ≠ .core) : (applyMove m s).mem = s.mem := by
  rcases applyMove_cases m s with rfl | h | ⟨bs, input, ended, sink, hrst, -⟩ | ⟨input, ended, sink, h⟩
  · exact absurd rfl hm
  · rw [h]; rfl
  · cases hr.symm.trans hrst
  · rw [h]

/-- Settles O56: no move of the environment reaches memory, and a step does in a `wmem` alone. -/
theorem memoryChangedByWmemAlone : Obligations.MemoryChangedByWmemAlone := by
  intro m s a hr hne
  by_cases hm : m = .core
  · subst hm
    obtain ⟨t, hstep⟩ := exists_step_eq_next s
    rw [applyMove_core hstep] at hne
    rcases step_mem hr hstep with hsame | hwmem
    · exact absurd (congrArg (readByte · a) hsame) hne
    · exact ⟨rfl, hwmem⟩
  · exact absurd (congrArg (readByte · a) (applyMove_mem hr hm)) hne

/-! ### A step under reset (R200, R202) -/

/-- Settles O18: the step is `applyReset`, whose registers read 0. -/
theorem assertedResetHoldsCore : Obligations.AssertedResetHoldsCore := fun s hr =>
  ⟨applyReset s, step_of_rst hr, readReg_applyReset s, rfl, rfl, rfl, rfl, rfl, rfl, rfl, fun _ => rfl, rfl, rfl, rfl,
    rfl, rfl⟩

end Sys2Proof.Machine
